-- ==== Sys2Proof/Word.lean ====
section
/-! DEFINITION. The word types of KSR1 and arrays tabulated from a function. -/

namespace Sys2Proof

/-- A bus word: every host access is 32 bits wide (R7 BUS_W, R56); also the width of a command word (R70)
and of a stored coefficient (R7 COEF_W). -/
abbrev Word := BitVec 32

/-- One byte of the state view (R21) or of the I/O buffer (R26). -/
abbrev Byte := BitVec 8

/-- One of the 25 lanes of the permutation state (R20). -/
abbrev Lane := BitVec 64

/-- The array of length `n` whose entry `i` is `f i`, laid out through a list so that the kernel evaluates
an entry without building the array by repeated appending. -/
def tabulate {α : Type} {n : Nat} (f : Fin n → α) : Vector α n :=
  ⟨⟨List.ofFn f⟩, by simp only [List.size_toArray, List.length_ofFn]⟩

@[simp] theorem tabulate_getElem {α : Type} {n : Nat} (f : Fin n → α) (i : Nat) (h : i < n) :
    (tabulate f)[i] = f ⟨i, h⟩ := by
  simp [tabulate]

end Sys2Proof
end

