-- ==== Sys2Proof/Syntax.lean ====
section
/-! DEFINITION. The commands of KSR1: one constructor per row of spec/opcode_table.json (30_encoding.md R74). -/

namespace Sys2Proof

/-- The number of a polynomial register P0 to P7: an unsigned 3-bit field, every value legal (R71). -/
abbrev PReg := Fin 8

/-- A command. Fields an opcode does not use are ignored (R73) and stand in no constructor; the argument of SINIT,
ABSORB and SQUEEZE is not in the word (R76). -/
inductive Instr where
  /-- PERMUTE, OP 0x01 (R108). -/
  | permute
  /-- SINIT, OP 0x02 (R121). -/
  | sinit
  /-- ABSORB, OP 0x03 (R122). -/
  | absorb
  /-- FINAL, OP 0x04 (R123). -/
  | final
  /-- SQUEEZE, OP 0x05 (R124). -/
  | squeeze
  /-- PADD pD, pA, pB; OP 0x10 (R141). -/
  | padd (d a b : PReg)
  /-- PMUL pD, pA, pB; OP 0x11 (R142). -/
  | pmul (d a b : PReg)
  /-- PRED pD, pA; OP 0x12 (R143). -/
  | pred (d a : PReg)
  /-- P2R pD, pE, pA; OP 0x13: t1 to pD, t0 to pE (R144). -/
  | p2r (d e a : PReg)
  deriving DecidableEq, Repr

end Sys2Proof
end

