-- ==== Sys2Proof/WellFormed.lean ====
section
/-! DEFINITION. Which commands are well formed: the one check of 30_encoding.md R71 and R78 that is about operands. -/

namespace Sys2Proof

/-- A command is well formed unless it is a P2R whose two destinations are one register (R71, R78, R161). -/
def Instr.wf : Instr → Bool
  | .permute => true
  | .sinit => true
  | .absorb => true
  | .final => true
  | .squeeze => true
  | .padd _ _ _ => true
  | .pmul _ _ _ => true
  | .pred _ _ => true
  | .p2r d e _ => decide (d ≠ e)

/-- `Instr.wf` as a proposition. -/
abbrev Instr.WellFormed (i : Instr) : Prop := i.wf = true

end Sys2Proof
end

