-- ==== Sys2Proof/Decode.lean ====
section
/-! DEFINITION. The command word (30_encoding.md R70 to R79): its fields, the decoder (total, rejecting by name, in the
order of R78) and the encoder (R79). -/

namespace Sys2Proof

/-- Why a command word is ILLEGAL (R161), in the order of R78. -/
inductive DecodeReject where
  /-- `w[31:20] ≠ 0` (R72). -/
  | reservedBits
  /-- OP is not one of 0x01 to 0x05 and 0x10 to 0x13 (R75). -/
  | unassignedOp
  /-- P2R with D = E (R78). -/
  | p2rSameDestination
  deriving DecidableEq, Repr

/-- What the decoder answers. -/
inductive Decoded where
  | instr (i : Instr)
  | reject (r : DecodeReject)
  deriving DecidableEq, Repr

/-- OP, bits [7:0] (R70). -/
def opField (w : Word) : BitVec 8 := w.extractLsb' 0 8

/-- RSV, bits [31:20] (R70). -/
def rsvField (w : Word) : BitVec 12 := w.extractLsb' 20 12

/-- A 3-bit register field whose lowest bit is `lo` (R70, R71). -/
def regField (w : Word) (lo : Nat) : PReg := (w.extractLsb' lo 3).toFin

/-- D, bits [10:8] (R70). -/
def dField (w : Word) : PReg := regField w 8
/-- A, bits [13:11] (R70). -/
def aField (w : Word) : PReg := regField w 11
/-- B, bits [16:14] (R70). -/
def bField (w : Word) : PReg := regField w 14
/-- E, bits [19:17] (R70). -/
def eField (w : Word) : PReg := regField w 17

/-- The opcode map (R74), for a word whose reserved bits are zero: the second and third checks of R78. -/
def decodeOp (op : BitVec 8) (d a b e : PReg) : Decoded :=
  if op = 0x01 then .instr .permute
  else if op = 0x02 then .instr .sinit
  else if op = 0x03 then .instr .absorb
  else if op = 0x04 then .instr .final
  else if op = 0x05 then .instr .squeeze
  else if op = 0x10 then .instr (.padd d a b)
  else if op = 0x11 then .instr (.pmul d a b)
  else if op = 0x12 then .instr (.pred d a)
  else if op = 0x13 then
    if d = e then .reject .p2rSameDestination else .instr (.p2r d e a)
  else .reject .unassignedOp

/-- The decoder: the checks of R78 in their order. -/
def decode (w : Word) : Decoded :=
  if rsvField w ≠ 0 then .reject .reservedBits
  else decodeOp (opField w) (dField w) (aField w) (bField w) (eField w)

/-- OP of a command (R74). -/
def Instr.opcode : Instr → BitVec 8
  | .permute => 0x01
  | .sinit => 0x02
  | .absorb => 0x03
  | .final => 0x04
  | .squeeze => 0x05
  | .padd _ _ _ => 0x10
  | .pmul _ _ _ => 0x11
  | .pred _ _ => 0x12
  | .p2r _ _ _ => 0x13

/-- A register number placed at bit `lo` of a command word (R79). -/
def regBits (r : PReg) (lo : Nat) : Word := BitVec.ofNat 32 r.val <<< lo

/-- The operand bits of a command's word: the assembler writes 0 into every unused field (R79). -/
def Instr.operandBits : Instr → Word
  | .permute => 0
  | .sinit => 0
  | .absorb => 0
  | .final => 0
  | .squeeze => 0
  | .padd d a b => regBits d 8 ||| regBits a 11 ||| regBits b 14
  | .pmul d a b => regBits d 8 ||| regBits a 11 ||| regBits b 14
  | .pred d a => regBits d 8 ||| regBits a 11
  | .p2r d e a => regBits d 8 ||| regBits a 11 ||| regBits e 17

/-- The encoder: the word of a command (R79). -/
def encode (i : Instr) : Word := i.opcode.setWidth 32 ||| i.operandBits

/-- The bits of the word that an opcode reads: OP, RSV and the fields of R74. The others are ignored (R73). -/
def Instr.usedMask : Instr → Word
  | .permute => 0xFFF000FF
  | .sinit => 0xFFF000FF
  | .absorb => 0xFFF000FF
  | .final => 0xFFF000FF
  | .squeeze => 0xFFF000FF
  | .padd _ _ _ => 0xFFF1FFFF
  | .pmul _ _ _ => 0xFFF1FFFF
  | .pred _ _ => 0xFFF03FFF
  | .p2r _ _ _ => 0xFFFE3FFF

/-- The command of an accepted word, none where the decoder refuses it. -/
def Decoded.toOption : Decoded → Option Instr
  | .instr i => some i
  | .reject _ => none

/-- What the decoder reads from a command whose bits are `w`, numbered as spec/opcode_table.json numbers them; every
bit above `nbits` is 0. A command is one 32-bit word (R70). -/
def decodeTableWord (nbits w : Nat) : Option Instr :=
  (decode (BitVec.ofNat 32 (w % 2 ^ nbits))).toOption

end Sys2Proof
end

