-- ==== Sys2Proof/Config.lean ====
section
/-! DEFINITION. The constants of KSR1 (00_scope.md R6, R7), its open parameter CORE_BASE, and the free values that
stand for what the spec leaves unspecified. A free value is a constant with no body: no proof can see what it is. -/

namespace Sys2Proof.Config

/-- N: coefficients per polynomial (R6). -/
abbrev N : Nat := 256
/-- Q: the coefficient modulus (R6). -/
abbrev Q : Int := 8380417
/-- D: the power2round split point (R6). -/
abbrev D : Nat := 13
/-- ROUNDS of Keccak-f[1600] (R6). -/
abbrev rounds : Nat := 24
/-- RATE128, in bytes (R6). -/
abbrev rate128 : BitVec 8 := 168
/-- RATE256, in bytes (R6). -/
abbrev rate256 : BitVec 8 := 136
/-- PAD_SUFFIX, the domain-separation suffix byte (R6). -/
abbrev padSuffix : Byte := 0x1F
/-- PAD_LAST, the top bit of the last rate byte (R6). -/
abbrev padLast : Byte := 0x80
/-- ETA: bound of the secret vectors' coefficients (R6). Host programs alone use it; no command depends on it. -/
abbrev eta : Nat := 2
/-- K: length of the vector t of key generation (R6). Host programs alone use it. -/
abbrev vectorK : Nat := 4
/-- L: length of the secret vector s1 (R6). Host programs alone use it. -/
abbrev vectorL : Nat := 4
/-- NPOLY: polynomial registers (R7). -/
abbrev nPoly : Nat := 8
/-- IOBUF_BYTES: size of the I/O buffer and largest ABSORB or SQUEEZE length (R7). -/
abbrev iobufBytes : Nat := 1024
/-- WINDOW: bytes of the register window (R7). -/
abbrev window : Nat := 0x4000
/-- The constant ID register (R30). -/
abbrev idWord : Word := 0x4B535231

/-- CORE_BASE is OPEN (R7, R50): which multiple of the window's size it is. Free: claims hold for every base. -/
opaque coreBaseIndex : Nat

/-- CORE_BASE, a multiple of 0x4000 (R7). -/
def coreBase : Nat := window * coreBaseIndex

/-- The word an unspecified host read returns at draw `n` (R66, R180; 93 U3, U7). Log entry 7. -/
opaque freeWord : Nat → Word

/-- Byte `k` of the I/O buffer after the reset at draw `n` (R37, 93 U4 and U6). Log entries 4 and 10. -/
opaque freeIobByte : Nat → Nat → Byte

/-- Coefficient word `k` of polynomial register `p` after the reset at draw `n` (R37, 93 U5 and U6).
Log entries 4 and 10. -/
opaque freePolyWord : Nat → Nat → Nat → Word

/-- PEND_CMD after the reset at draw `n`: "unspecified, never observable" (R37). Log entry 5. -/
opaque freePendCmd : Nat → Word

/-- PEND_ARG after the reset at draw `n`: "unspecified, never observable" (R37). Log entry 5. -/
opaque freePendArg : Nat → Word

/-- The hidden round counter after the event at draw `n` (R34, R37). Log entries 5 and 6. -/
opaque freeRound : Nat → Fin 24

/-- The hidden step index after the event at draw `n`, as the number of one of the five steps (R34, R37).
Log entries 5 and 6. -/
opaque freeStepIndex : Nat → Fin 5

end Sys2Proof.Config
end

