-- ==== Sys2Proof/Machine/State.lean ====
section
/-! DEFINITION. The state of KSR1 (10_state.md R20 to R37) as plain data, the events that move it, the reasons a step
can stop, and the state right after reset. -/

namespace Sys2Proof.Machine

/-- The 25 lanes of the permutation state: lane `i` has coordinates x = i mod 5, y = i / 5 (R20). -/
abbrev Lanes := Vector Lane 25

/-- The 256 coefficient words of one polynomial register, word `k` the coefficient of X^k (R25). -/
abbrev Poly := Vector Word 256

/-- The sponge phase (R24). -/
inductive Phase where
  | idle
  | absorbing
  | finalized
  | squeezing
  deriving DecidableEq, Repr

/-- The result code of a completed command (R33, R160): codes 5 to 15 are never written. -/
inductive ErrCode where
  | ok
  | illegal
  | protocol
  | range
  | config
  deriving DecidableEq, Repr

/-- The five steps of a round, which the hidden step index names (R34). -/
inductive KeccakStep where
  | theta
  | rho
  | pi
  | chi
  | iota
  deriving DecidableEq, Repr

/-- The step of a number 0 to 4, in the order θ, ρ, π, χ, ι (R34). -/
def KeccakStep.ofIndex (i : Fin 5) : KeccakStep :=
  match i with
  | 0 => .theta
  | 1 => .rho
  | 2 => .pi
  | 3 => .chi
  | 4 => .iota

/-- One host access at a byte offset from CORE_BASE (R41, R50, R56), of a width in bytes: only width 4 at an offset
with `off mod 4 = 0` is supported; the others are here so that the model can refuse them (R168). -/
inductive Access where
  | read (bytes off : Nat)
  | write (bytes off : Nat) (data : Word)
  deriving DecidableEq, Repr

/-- What can happen next: a host access (R41), the core's turn (R40), an edge of the reset input (R180). -/
inductive Event where
  | host (a : Access)
  | core
  | assertReset
  | releaseReset
  deriving DecidableEq, Repr

/-- The state of KSR1. The last four fields are the model's own. -/
structure State where
  /-- LANE[0..24] (R20). -/
  lanes : Lanes
  /-- RATE, in bytes; legal values 0, 136, 168 (R22). -/
  rate : BitVec 8
  /-- CURSOR, STATUS[23:16] (R23). -/
  cursor : BitVec 8
  /-- PHASE, STATUS[9:8] (R24). -/
  phase : Phase
  /-- P0 to P7 (R25). -/
  polys : Vector Poly 8
  /-- IOB[0..1023] (R26). -/
  iob : Vector Byte 1024
  /-- ARG (R27). -/
  arg : Word
  /-- BUSY, STATUS[0] (R31). -/
  busy : Bool
  /-- OVR, STATUS[1] (R32). -/
  ovr : Bool
  /-- ERR, STATUS[7:4] (R33). -/
  err : ErrCode
  /-- PEND_CMD, hidden (R31). -/
  pendCmd : Word
  /-- PEND_ARG, hidden (R31). -/
  pendArg : Word
  /-- The round counter, hidden (R34). -/
  round : Fin 24
  /-- The step index, hidden (R34). -/
  stepIndex : KeccakStep
  /-- Whether the reset input is asserted (R180). DESIGN CHOICE, log entry 11. -/
  resetPin : Bool
  /-- The events still to come, oldest first: one interleaving of host steps and core steps (R41).
  DESIGN CHOICE, log entry 1. -/
  agenda : List Event
  /-- The word the last host read returned (R56). DESIGN CHOICE, log entry 8. -/
  readData : Word
  /-- How many free draws have been made. DESIGN CHOICE, log entry 9. -/
  draws : Nat
  deriving DecidableEq, Repr

/-- Why a step can stop with a fault. No command faults: an error of a command is a completed command (R171). -/
inductive Fault where
  /-- Raised by a host access at an offset outside the window's 0x4000 bytes, which KSR1 does not have (R50).
  Safe: the model stops where KSR1 is not addressed. Log entry 12. -/
  | outsideWindow
  deriving DecidableEq, Repr

/-- Why a step can be refused. -/
inductive Refusal where
  /-- A command without a meaning; no arm of `exec` answers it. Safe. -/
  | notModelled (mnemonic : String)
  /-- Raised by a host access that is not 32 bits wide or not word-aligned: "A model refuses it" (R56, R168).
  Safe: errs toward unprovable. Log entry 13. -/
  | unsupportedAccess
  deriving DecidableEq, Repr

/-- The state a reset at draw `n` leaves (R37, R180). What R37 calls unspecified is a free value of Config
(DESIGN CHOICE, log entries 4 and 5); the fields of the model's own take the values of log entries 1, 8, 9, 11. -/
def State.resetAt (n : Nat) : State where
  lanes := Vector.replicate 25 0
  rate := 0
  cursor := 0
  phase := .idle
  polys := tabulate fun p => tabulate fun k => Config.freePolyWord n p k
  iob := tabulate fun k => Config.freeIobByte n k
  arg := 0
  busy := false
  ovr := false
  err := .ok
  pendCmd := Config.freePendCmd n
  pendArg := Config.freePendArg n
  round := Config.freeRound n
  stepIndex := KeccakStep.ofIndex (Config.freeStepIndex n)
  resetPin := false
  agenda := []
  readData := 0
  draws := n + 1

/-- KSR1 right after reset, the reset input released (R37, R181). -/
def State.reset : State := State.resetAt 0

end Sys2Proof.Machine
end

