-- ==== Sys2Proof/Machine/Keccak.lean ====
section
/-! DEFINITION. The permutation core: the function KeccakF and its five steps (41_permutation.md R100 to R106), and the
same function as the hidden machine of a round counter and a step index (R34). -/

namespace Sys2Proof.Machine

theorem laneIndex_lt (x y : Nat) : x % 5 + 5 * (y % 5) < 25 := by omega

/-- `A[x,y]`, the lane of index x + 5y, coordinates taken mod 5 (R10, R20). -/
def laneAt (A : Lanes) (x y : Nat) : Lane := A[x % 5 + 5 * (y % 5)]'(laneIndex_lt x y)

/-- The state whose lane (x, y) is `f x y`. -/
def lanesOf (f : Nat → Nat → Lane) : Lanes := tabulate fun i => f (i.val % 5) (i.val / 5)

/-- `rol64(v, n)`: rotation left by n mod 64 (R10). -/
def rol64 (v : Lane) (n : Nat) : Lane := v.rotateLeft n

/-- R102's table of the rotation offsets, one row per x, one column per y. -/
def rotRows : Vector (Vector Nat 5) 5 :=
  #v[#v[0, 36, 3, 41, 18],
     #v[1, 44, 10, 45, 2],
     #v[62, 6, 43, 15, 61],
     #v[28, 55, 25, 21, 56],
     #v[27, 20, 39, 8, 14]]

/-- `ROT[x][y]`, coordinates taken mod 5 (R10, R102). -/
def rotOffset (x y : Nat) : Nat :=
  (rotRows[x % 5]'(Nat.mod_lt x (by decide)))[y % 5]'(Nat.mod_lt y (by decide))

/-- Which of the seven bit positions 2^j - 1 are set in each round constant: bit j of entry ir is bit 2^j - 1 of RC[ir],
transcribed from R105's table. -/
def rcPattern : Vector (BitVec 7) 24 :=
  #v[0b0000001, 0b0011010, 0b1011110, 0b1110000, 0b0011111, 0b0100001,
     0b1111001, 0b1010101, 0b0001110, 0b0001100, 0b0110101, 0b0100110,
     0b0111111, 0b1001111, 0b1011101, 0b1010011, 0b1010010, 0b1001000,
     0b0010110, 0b1100110, 0b1111001, 0b1011000, 0b0100001, 0b1110100]

/-- `RC[ir]`: the pattern's bits at the positions 2^j - 1, every other bit 0 (R105). -/
def roundConstant (ir : Fin 24) : Lane :=
  (List.range 7).foldl (fun v j => if rcPattern[ir].getLsbD j then v ||| 1 <<< (2 ^ j - 1) else v) 0

/-- C[x] of R101: the parity of column x. -/
def columnParity (A : Lanes) (x : Nat) : Lane :=
  laneAt A x 0 ^^^ laneAt A x 1 ^^^ laneAt A x 2 ^^^ laneAt A x 3 ^^^ laneAt A x 4

/-- θ, column-parity mixing (R101). -/
def theta (A : Lanes) : Lanes :=
  lanesOf fun x y => laneAt A x y ^^^ (columnParity A (x + 4) ^^^ rol64 (columnParity A (x + 1)) 1)

/-- ρ, the rotation step (R102). -/
def rho (A : Lanes) : Lanes :=
  lanesOf fun x y => rol64 (laneAt A x y) (rotOffset x y)

/-- π, the lane permutation: `pi(A)[x,y] = A[(x + 3y) mod 5, x]` (R103). -/
def pi (A : Lanes) : Lanes :=
  lanesOf fun x y => laneAt A (x + 3 * y) x

/-- χ, non-linear per-row mixing (R104). -/
def chi (A : Lanes) : Lanes :=
  lanesOf fun x y => laneAt A x y ^^^ (~~~ laneAt A (x + 1) y &&& laneAt A (x + 2) y)

/-- ι, round-constant injection into lane (0,0) (R105). -/
def iota (A : Lanes) (ir : Fin 24) : Lanes := A.set 0 (A[0] ^^^ roundConstant ir)

/-- One round with index `ir` (R100). -/
def keccakRound (A : Lanes) (ir : Fin 24) : Lanes := iota (chi (pi (rho (theta A)))) ir

/-- KeccakF: the 24 rounds in increasing order of their index (R100). -/
def keccakF (A : Lanes) : Lanes := (List.finRange 24).foldl keccakRound A

/-- The permutation core in the middle of its work: the lanes, the round counter and the step index (R34). -/
structure KeccakUnit where
  lanes : Lanes
  round : Fin 24
  step : KeccakStep
  deriving DecidableEq, Repr

/-- One step of the "24-round state machine, 5-step sub-pipeline" (41_permutation.md, opening; R34): the step the index
names, in the round the counter names. What the counters show after the last step is unspecified (R37); this
machine wraps. -/
def KeccakUnit.tick (u : KeccakUnit) : KeccakUnit :=
  match u.step with
  | .theta => { u with lanes := theta u.lanes, step := .rho }
  | .rho => { u with lanes := rho u.lanes, step := .pi }
  | .pi => { u with lanes := pi u.lanes, step := .chi }
  | .chi => { u with lanes := chi u.lanes, step := .iota }
  | .iota => { lanes := iota u.lanes u.round, round := u.round + 1, step := .theta }

/-- `k` steps of the permutation core. -/
def KeccakUnit.ticks : Nat → KeccakUnit → KeccakUnit
  | 0, u => u
  | k + 1, u => KeccakUnit.ticks k u.tick

end Sys2Proof.Machine
end

