-- ==== Sys2Proof/Machine/Ops.lean ====
section
/-! DEFINITION. The shared operations over the state: byte and word views of the lanes (R21, R55), polynomial registers,
ending a command (R33, R40) and raising an error (R165), accepting a command (R31), running the permutation (R109),
the loops of ABSORB and SQUEEZE (R122, R124), and what reset does (R180). -/

namespace Sys2Proof.Machine

/-- `v` with the `k` bits from bit `lo` up replaced by `x` (R21: a write changes only those bits). -/
def insertBits {n k : Nat} (v : BitVec n) (lo : Nat) (x : BitVec k) : BitVec n :=
  (v &&& ~~~ ((BitVec.allOnes k).setWidth n <<< lo)) ||| (x.setWidth n <<< lo)

/-- SB(i): byte i of the state, bits [8(i mod 8)+7 : 8(i mod 8)] of lane i/8 (R21). An index past byte 199, which no
state that meets R38 gives, reads 0 (log entry 15). -/
def stateByte (A : Lanes) (i : Nat) : Byte := (A.getD (i / 8) 0).extractLsb' (8 * (i % 8)) 8

/-- A write to SB(i): changes only those 8 bits (R21). An index past byte 199 changes nothing (log entry 15). -/
def setStateByte (A : Lanes) (i : Nat) (b : Byte) : Lanes :=
  A.setIfInBounds (i / 8) (insertBits (A.getD (i / 8) 0) (8 * (i % 8)) b)

/-- `SB(i) <- SB(i) ⊕ b` (R122, R123). -/
def xorStateByte (A : Lanes) (i : Nat) (b : Byte) : Lanes := setStateByte A i (stateByte A i ^^^ b)

/-- The 32-bit word `w` of the lane window: the low or the high half of lane w/2 (R52). -/
def laneWord (A : Lanes) (w : Nat) : Word := (A.getD (w / 2) 0).extractLsb' (32 * (w % 2)) 32

/-- A write of word `w` of the lane window replaces those 32 bits (R52). -/
def setLaneWord (A : Lanes) (w : Nat) (x : Word) : Lanes :=
  A.setIfInBounds (w / 2) (insertBits (A.getD (w / 2) 0) (32 * (w % 2)) x)

/-- Byte j of a bus word is its bits [8j+7 : 8j] (R55 b). -/
def wordByte (w : Word) (j : Nat) : Byte := w.extractLsb' (8 * j) 8

/-- The word `w` of the buffer window: IOB[4w+3] ‖ IOB[4w+2] ‖ IOB[4w+1] ‖ IOB[4w] (R53). -/
def iobWord (iob : Vector Byte 1024) (w : Nat) : Word :=
  (iob.getD (4 * w + 3) 0 ++ iob.getD (4 * w + 2) 0 ++ iob.getD (4 * w + 1) 0 ++ iob.getD (4 * w) 0)

/-- A write of word `w` of the buffer window replaces its four bytes (R53). -/
def setIobWord (iob : Vector Byte 1024) (w : Nat) (x : Word) : Vector Byte 1024 :=
  (((iob.setIfInBounds (4 * w) (wordByte x 0)).setIfInBounds (4 * w + 1) (wordByte x 1)).setIfInBounds
    (4 * w + 2) (wordByte x 2)).setIfInBounds (4 * w + 3) (wordByte x 3)

/-- Writing polynomial register `p` (R25). -/
def State.setPoly (s : State) (p : PReg) (v : Poly) : State := { s with polys := s.polys.set p.val v }

/-- A host write of one coefficient word (R54). -/
def State.setPolyWord (s : State) (p : PReg) (k : Fin 256) (w : Word) : State :=
  s.setPoly p (s.polys[p].set k.val w)

/-- The end of a command: it writes ERR and clears BUSY (R33, R40). -/
def State.complete (s : State) (c : ErrCode) : State := { s with err := c, busy := false }

/-- `raise Error(code)`: no state change except `ERR <- code` and `BUSY <- 0` (R165). The one way KSR1 has of taking
an exception; it saves nothing, transfers no control and has no return (R171, R172). -/
def State.raiseError (s : State) (c : ErrCode) : State := s.complete c

/-- A host write of `w` to CMD while BUSY = 0 is accepted (R31). -/
def State.acceptCommand (s : State) (w : Word) : State :=
  { s with pendCmd := w, pendArg := s.arg, ovr := false, busy := true }

/-- The permutation core runs on the 25 lanes (R108, R109). What its hidden counters show afterwards is unspecified
(R34, R37): free values (log entry 6). -/
def State.permute (s : State) : State :=
  { s with
    lanes := keccakF s.lanes
    round := Config.freeRound s.draws
    stepIndex := KeccakStep.ofIndex (Config.freeStepIndex s.draws)
    draws := s.draws + 1 }

/-- The cursor's advance inside ABSORB and SQUEEZE, with the permutation applied as soon as the cursor reaches RATE
(R122, R124, decision D11). -/
def State.advanceCursor (s : State) : State :=
  if s.cursor + 1 = s.rate then { s.permute with cursor := 0 } else { s with cursor := s.cursor + 1 }

/-- One turn of ABSORB's loop, on input byte `b` (R122). -/
def State.absorbByte (s : State) (b : Byte) : State :=
  State.advanceCursor { s with lanes := xorStateByte s.lanes s.cursor.toNat b }

/-- ABSORB's loop over its input bytes (R122). -/
def State.absorbBytes (s : State) (bs : List Byte) : State := bs.foldl State.absorbByte s

/-- One turn of SQUEEZE's loop: `IOB[k] <- SB(CURSOR)`, then the cursor's advance (R124). -/
def State.squeezeByte (s : State) (k : Nat) : State :=
  State.advanceCursor { s with iob := s.iob.setIfInBounds k (stateByte s.lanes s.cursor.toNat) }

/-- SQUEEZE's loop for k = 0 .. n-1 (R124). -/
def State.squeezeBytes (s : State) (n : Nat) : State := (List.range n).foldl State.squeezeByte s

/-- An edge that asserts the reset input: every piece of KSR1's state takes its reset value, and a command in flight
is abandoned (R37, R180). IOB and the polynomial registers hold unspecified contents, fresh free values, which
covers whatever an abandoned command had written (93 U6; log entry 10). -/
def State.assertReset (s : State) : State :=
  { State.resetAt s.draws with resetPin := true, agenda := s.agenda, readData := s.readData }

/-- The reset input is released: KSR1 is ready at once (R181). -/
def State.releaseReset (s : State) : State := { s with resetPin := false }

end Sys2Proof.Machine
end

