-- ==== Sys2Proof/Machine/Flags.lean ====
section
/-! DEFINITION. The STATUS word and its fields (10_state.md R24, R29, R33). KSR1 has no other flags: no arithmetic command
sets one (R36). -/

namespace Sys2Proof.Machine

/-- The encoding of PHASE (R24). -/
def Phase.code : Phase → BitVec 2
  | .idle => 0
  | .absorbing => 1
  | .finalized => 2
  | .squeezing => 3

/-- The numbers of the error codes (R160). -/
def ErrCode.code : ErrCode → BitVec 4
  | .ok => 0
  | .illegal => 1
  | .protocol => 2
  | .range => 3
  | .config => 4

/-- The STATUS word of its five fields, reserved bits 0 (R29): from the top, 8 reserved bits, CURSOR, 6 reserved bits,
PHASE, ERR, 2 reserved bits, OVR, BUSY. -/
def statusOf (busy ovr : Bool) (err : BitVec 4) (phase : BitVec 2) (cursor : BitVec 8) : Word :=
  0#8 ++ cursor ++ 0#6 ++ phase ++ err ++ 0#2 ++ BitVec.ofBool ovr ++ BitVec.ofBool busy

/-- STATUS as a host reads it while BUSY = 0 (R29). -/
def State.statusWord (s : State) : Word :=
  statusOf s.busy s.ovr s.err.code s.phase.code s.cursor

/-- STATUS as a host reads it while BUSY = 1: BUSY and OVR are exact, reserved bits 0, and ERR, PHASE and CURSOR are
unspecified, here the bits of the free word `f` (R66). -/
def State.busyStatusWord (s : State) (f : Word) : Word :=
  statusOf s.busy s.ovr (f.extractLsb' 4 4) (f.extractLsb' 8 2) (f.extractLsb' 16 8)

end Sys2Proof.Machine
end

