-- ==== Sys2Proof/Machine/Operands.lean ====
section
/-! DEFINITION. The operands of commands: the argument (30_encoding.md R76, R77) and the signed coefficients of a
polynomial register (43_ring.md R140; 00_scope.md R9). -/

namespace Sys2Proof.Machine

/-- The argument of SINIT, ABSORB and SQUEEZE: PEND_ARG as an unsigned number, with no extension, scaling or shift
(R76, R77). -/
def State.argument (s : State) : Nat := s.pendArg.toNat

/-- The rate a variant selects; none for a number that is no variant (R76, R121). -/
def variantRate (v : Nat) : Option (BitVec 8) :=
  if v = 128 then some Config.rate128 else if v = 256 then some Config.rate256 else none

/-- The input bytes of ABSORB: IOB[0] to IOB[n-1] (R122). -/
def State.inputBytes (s : State) (n : Nat) : List Byte := s.iob.toList.take n

/-- `sv(P[p][k])` for every k: the coefficients of a source register as signed integers (R9, R140). -/
abbrev Coeffs := Fin 256 → Int

/-- The signed reading of a polynomial register (R9, R140). -/
def coeffsOf (v : Poly) : Coeffs := fun k => v[k].toInt

/-- `reduce(x) = x mod Q`, in [0, Q), floor semantics for every integer (R9, R140). -/
def reduce (x : Int) : Int := x % Config.Q

/-- `word32(x)`: the two's-complement word of x (R9). -/
def word32 (x : Int) : Word := BitVec.ofInt 32 x

/-- The register contents of a coefficient function. -/
def polyOf (c : Coeffs) : Poly := tabulate fun k => word32 (c k)

end Sys2Proof.Machine
end

