-- ==== Sys2Proof/Machine/Bus.lean ====
section
/-! DEFINITION. The register window as the host sees it (20_memory.md R50 to R67): the address map, reads and writes, and
one host access. -/

namespace Sys2Proof.Machine

/-- The offset of a system address in the window; none for an address outside it (R50). -/
def offsetOfAddress (addr : Nat) : Option Nat :=
  if Config.coreBase ≤ addr ∧ addr < Config.coreBase + Config.window then some (addr - Config.coreBase) else none

/-- What stands at a word of the address map (R51). -/
inductive Region where
  | id
  | cmd
  | arg
  | status
  | rate
  /-- Word `w` of the lane window, w in 0..49 (R52). -/
  | lane (w : Nat)
  /-- Word `w` of the buffer window, w in 0..255 (R53). -/
  | iobuf (w : Nat)
  /-- Coefficient word k of polynomial register p (R54). -/
  | poly (p : PReg) (k : Fin 256)
  /-- Every offset the map does not list (R57). -/
  | reserved
  deriving DecidableEq, Repr

/-- The address map (R51): what the word that holds byte offset `off` is. Every range starts and ends at a word, so address
bits [13:2] select it (R50). -/
def regionOf (off : Nat) : Region :=
  if off < 0x0004 then .id
  else if off < 0x0008 then .cmd
  else if off < 0x000C then .arg
  else if off < 0x0010 then .status
  else if off < 0x0014 then .rate
  else if off < 0x0100 then .reserved
  else if off < 0x01C8 then .lane ((off - 0x0100) / 4)
  else if off < 0x0400 then .reserved
  else if off < 0x0800 then .iobuf ((off - 0x0400) / 4)
  else if off < 0x2000 then .reserved
  else if off < 0x4000 then .poly (Fin.ofNat 8 ((off - 0x2000) / 0x400)) (Fin.ofNat 256 ((off - 0x2000) / 4))
  else .reserved

/-- The word a host read returns while BUSY = 0 (R51 to R54, R57, R58). -/
def State.peek (s : State) (off : Nat) : Word :=
  match regionOf off with
  | .id => Config.idWord
  | .cmd => 0
  | .arg => s.arg
  | .status => s.statusWord
  | .rate => s.rate.setWidth 32
  | .lane w => laneWord s.lanes w
  | .iobuf w => iobWord s.iob w
  | .poly p k => s.polys[p][k]
  | .reserved => 0

/-- The word a host read returns while BUSY = 1, where `f` is the free word of this read (R66). -/
def State.busyPeek (s : State) (off : Nat) (f : Word) : Word :=
  match regionOf off with
  | .id => Config.idWord
  | .cmd => 0
  | .arg => s.arg
  | .status => s.busyStatusWord f
  | .rate => f
  | .lane _ => f
  | .iobuf _ => f
  | .poly _ _ => f
  | .reserved => 0

/-- The byte at byte offset `a` of the window while BUSY = 0: byte a mod 4 of its word (R55 b). The model's read of one
byte, in which frames are stated. -/
def State.windowByte (s : State) (a : Nat) : Byte := wordByte (s.peek a) (a % 4)

/-- `MmioRead(off)`: the state after it and the word it returns. While BUSY = 0 no read has a side effect (R59); while
BUSY = 1, and while reset is asserted, one free word is drawn (R66, R180). -/
def State.mmioRead (s : State) (off : Nat) : State × Word :=
  if s.resetPin then ({ s with draws := s.draws + 1 }, Config.freeWord s.draws)
  else if s.busy then ({ s with draws := s.draws + 1 }, s.busyPeek off (Config.freeWord s.draws))
  else (s, s.peek off)

/-- The effect of a host write while BUSY = 0 (R31, R52 to R54, R57, R58). -/
def State.poke (s : State) (off : Nat) (w : Word) : State :=
  match regionOf off with
  | .id => s
  | .cmd => s.acceptCommand w
  | .arg => { s with arg := w }
  | .status => s
  | .rate => s
  | .lane i => { s with lanes := setLaneWord s.lanes i w }
  | .iobuf i => { s with iob := setIobWord s.iob i w }
  | .poly p k => s.setPolyWord p k w
  | .reserved => s

/-- `MmioWrite(off, w)`: no effect while reset is asserted (R180); while BUSY = 1 ignored but for `OVR <- 1` (R65). -/
def State.mmioWrite (s : State) (off : Nat) (w : Word) : State :=
  if s.resetPin then s
  else if s.busy then { s with ovr := true }
  else s.poke off w

/-- Whether an access is one KSR1 supports: 32 bits wide at a word-aligned offset (R56). -/
def supported (bytes off : Nat) : Bool := bytes == 4 && off % 4 == 0

/-- One host step (R41): an unsupported access is refused (R168), an access outside the window faults (R50), a
supported one is made. -/
def hostStep (a : Access) (s : State) : Host.Outcome State Fault Refusal :=
  match a with
  | .read bytes off =>
    if !supported bytes off then .refused .unsupportedAccess
    else if off ≥ Config.window then .fault .outsideWindow
    else .next { (s.mmioRead off).1 with readData := (s.mmioRead off).2 }
  | .write bytes off w =>
    if !supported bytes off then .refused .unsupportedAccess
    else if off ≥ Config.window then .fault .outsideWindow
    else .next (s.mmioWrite off w)

end Sys2Proof.Machine
end

