-- ==== Sys2Proof/Machine/Permutation.lean ====
section
/-! DEFINITION. The meaning of PERMUTE (41_permutation.md R108). -/

namespace Sys2Proof.Machine

/-- PERMUTE: the lanes become KeccakF of the lanes; RATE, CURSOR and PHASE stay; legal in every phase (R108). -/
def execPermute (s : State) : Host.Outcome State Fault Refusal :=
  .next (s.permute.complete .ok)

end Sys2Proof.Machine
end

