-- ==== Sys2Proof/Machine/Ring.lean ====
section
/-! DEFINITION. The meanings of the ring commands PADD, PMUL, PRED and P2R (43_ring.md R140 to R145). Every source register
is read whole before a destination is written (R145). -/

namespace Sys2Proof.Machine

/-- Coefficient k of the negacyclic product, over the integers: a_i * b_j lands at (i + j) mod 256, negated whenever
i + j ≥ 256 (R142). For a given i and k the one j is k - i mod 256, and i + j ≥ 256 exactly when i > k. -/
def negacyclic (a b : Coeffs) : Coeffs := fun k =>
  ((List.finRange 256).map fun i => if i ≤ k then a i * b (k - i) else -(a i * b (k - i))).sum

/-- The low part of the power2round split: t mod 2^13 (R144). -/
def lowPart (t : Int) : Int := t % 2 ^ Config.D

/-- The high part of the power2round split: floor(t / 2^13) (R144). -/
def highPart (t : Int) : Int := t / 2 ^ Config.D

/-- PADD: the coefficientwise sum, reduced (R141). -/
def execPadd (d a b : PReg) (s : State) : Host.Outcome State Fault Refusal :=
  let x := coeffsOf s.polys[a]
  let y := coeffsOf s.polys[b]
  .next ((s.setPoly d (polyOf fun k => reduce (x k + y k))).complete .ok)

/-- PMUL: the negacyclic product, reduced (R142). -/
def execPmul (d a b : PReg) (s : State) : Host.Outcome State Fault Refusal :=
  let x := coeffsOf s.polys[a]
  let y := coeffsOf s.polys[b]
  .next ((s.setPoly d (polyOf fun k => reduce (negacyclic x y k))).complete .ok)

/-- PRED: the canonical reduction of each coefficient (R143). -/
def execPred (d a : PReg) (s : State) : Host.Outcome State Fault Refusal :=
  let x := coeffsOf s.polys[a]
  .next ((s.setPoly d (polyOf fun k => reduce (x k))).complete .ok)

/-- P2R: t1 to P[d], t0 to P[e] (R144). The decoder has already refused d = e (R78); the meaning answers that form
with the same error (log entry 16). -/
def execP2r (d e a : PReg) (s : State) : Host.Outcome State Fault Refusal :=
  if d = e then .next (s.raiseError .illegal)
  else
    let t := coeffsOf s.polys[a]
    .next (((s.setPoly d (polyOf fun k => highPart (t k))).setPoly e (polyOf fun k => lowPart (t k))).complete .ok)

end Sys2Proof.Machine
end

