-- ==== Sys2Proof/Machine/Sponge.lean ====
section
/-! DEFINITION. The meanings of the sponge commands SINIT, ABSORB, FINAL and SQUEEZE (42_sponge.md R120 to R124). -/

namespace Sys2Proof.Machine

/-- SINIT: zero the lanes and select the rate; CONFIG when the argument is neither 128 nor 256; legal in every phase
(R121, R164). -/
def execSinit (s : State) : Host.Outcome State Fault Refusal :=
  match variantRate s.argument with
  | none => .next (s.raiseError .config)
  | some r =>
    .next (State.complete
      { s with lanes := Vector.replicate 25 0, rate := r, cursor := 0, phase := .absorbing } .ok)

/-- ABSORB: PROTOCOL unless ABSORBING, then RANGE when n > 1024, else XOR the n input bytes into the state (R122). -/
def execAbsorb (s : State) : Host.Outcome State Fault Refusal :=
  if s.phase ≠ .absorbing then .next (s.raiseError .protocol)
  else if s.argument > Config.iobufBytes then .next (s.raiseError .range)
  else .next ((s.absorbBytes (s.inputBytes s.argument)).complete .ok)

/-- FINAL: PROTOCOL unless ABSORBING, else XOR the padding into the state, permute, and open the squeeze side (R123). -/
def execFinal (s : State) : Host.Outcome State Fault Refusal :=
  if s.phase ≠ .absorbing then .next (s.raiseError .protocol)
  else
    let padded : State :=
      { s with lanes :=
          xorStateByte (xorStateByte s.lanes s.cursor.toNat Config.padSuffix) (s.rate.toNat - 1) Config.padLast }
    .next (State.complete { padded.permute with cursor := 0, phase := .finalized } .ok)

/-- SQUEEZE: PROTOCOL unless FINALIZED or SQUEEZING, then RANGE when n > 1024, else n bytes of output into IOB
(R124). -/
def execSqueeze (s : State) : Host.Outcome State Fault Refusal :=
  if s.phase ≠ .finalized ∧ s.phase ≠ .squeezing then .next (s.raiseError .protocol)
  else if s.argument > Config.iobufBytes then .next (s.raiseError .range)
  else .next (State.complete { s.squeezeBytes s.argument with phase := .squeezing } .ok)

end Sys2Proof.Machine
end

