-- ==== Sys2Proof/Machine/Dispatch.lean ====
section
/-! DEFINITION. One arm per command: its meaning. -/

namespace Sys2Proof.Machine

/-- The effect of a command on the state, with PEND_ARG as its argument (R40, R78). -/
def exec (i : Instr) (s : State) : Host.Outcome State Fault Refusal :=
  match i with
  | .permute => Sys2Proof.Machine.execPermute s
  | .sinit => Sys2Proof.Machine.execSinit s
  | .absorb => Sys2Proof.Machine.execAbsorb s
  | .final => Sys2Proof.Machine.execFinal s
  | .squeeze => Sys2Proof.Machine.execSqueeze s
  | .padd d a b => Sys2Proof.Machine.execPadd d a b s
  | .pmul d a b => Sys2Proof.Machine.execPmul d a b s
  | .pred d a => Sys2Proof.Machine.execPred d a s
  | .p2r d e a => Sys2Proof.Machine.execP2r d e a s

end Sys2Proof.Machine
end

