-- ==== Sys2Proof/Machine/Sequencer.lean ====
section
/-! DEFINITION. The core's step (10_state.md R40, 30_encoding.md R78) and what each event does (R41, R180). -/

namespace Sys2Proof.Machine

/-- The pending command's effect: decode PEND_CMD; an illegal word completes with ERR = ILLEGAL and changes nothing
else (R72, R75, R78), a legal one is executed. -/
def execPending (s : State) : Host.Outcome State Fault Refusal :=
  match decode s.pendCmd with
  | .reject _ => .next (s.raiseError .illegal)
  | .instr i => exec i s

/-- The core's turn: when BUSY = 1 it completes the pending command in one atomic step; when BUSY = 0, and while reset
is asserted, it has no step and nothing changes (R40, R180). -/
def coreStep (s : State) : Host.Outcome State Fault Refusal :=
  if s.busy && !s.resetPin then execPending s else .next s

/-- What one event does. -/
def runEvent (e : Event) (s : State) : Host.Outcome State Fault Refusal :=
  match e with
  | .host a => hostStep a s
  | .core => coreStep s
  | .assertReset => .next s.assertReset
  | .releaseReset => .next s.releaseReset

/-- The next event of the agenda happens; with none left the core takes its turn, so that every accepted command
completes (R41; log entries 1 and 2). -/
def advance (s : State) : Host.Outcome State Fault Refusal :=
  match s.agenda with
  | [] => coreStep s
  | e :: rest => runEvent e { s with agenda := rest }

/-- The core's turn put before everything else the agenda holds. -/
def coreFirst (agenda : List Event) : List Event :=
  match agenda with
  | [] => []
  | e :: rest => .core :: e :: rest

/-- `w` as an accepted command word, the core's turn next: a host write of `w` to CMD while BUSY = 0 (R31), with reset
released (log entry 3). -/
def State.withCommand (s : State) (w : Word) : State :=
  State.acceptCommand { s with resetPin := false, agenda := coreFirst s.agenda } w

end Sys2Proof.Machine
end

