-- ==== Sys2Proof/Machine/Step.lean ====
section
/-! DEFINITION. One step of the machine, and the state in which the next step runs a given command word. -/

namespace Sys2Proof.Machine

/-- One step: the next event of the agenda, or the core's turn (R40, R41). -/
def step (s : State) : Host.Outcome State Fault Refusal := advance s

/-- `s` with the command word `w` accepted and the core's turn next, so that `step` decodes and runs exactly it. KSR1
fetches nothing (R35, R64): a command comes from a host write to CMD, and this stands for that write (log entry 3). -/
def State.withFetchWord (s : State) (nbits w : Nat) : State :=
  s.withCommand (BitVec.ofNat 32 (w % 2 ^ nbits))

end Sys2Proof.Machine
end

