-- ==== Sys2Proof/Machine/HostProgram.lean ====
section
/-! DEFINITION. The host program notation and the pseudo-instructions of 30_encoding.md R80 and R81, and the agenda that a host
which waits after each command gives the machine. -/

namespace Sys2Proof.Machine

/-- One step of a host program (R80). `ISSUE cmd` is a `wr`. -/
inductive HostStep where
  /-- `WR off, w`: `MmioWrite(off, w)`. -/
  | wr (off : Nat) (w : Word)
  /-- `RD off -> v`: `v <- MmioRead(off)`. -/
  | rd (off : Nat)
  /-- `WAIT`: repeat `RD 0x000C -> s` until `s[0] = 0`. -/
  | wait
  deriving DecidableEq, Repr

/-- `ISSUE cmd`: `WR 0x0004, <word of cmd>` (R80). -/
def issue (i : Instr) : HostStep := .wr 0x0004 (encode i)

/-- `DO cmd`: `ISSUE cmd ; WAIT` (R81). -/
def doCommand (i : Instr) : List HostStep := [issue i, .wait]

/-- `SETARG v` (R81). -/
def setArg (v : Word) : List HostStep := [.wr 0x0008 v]

/-- `SPONGE_INIT v` (R81). -/
def spongeInit (v : Word) : List HostStep := setArg v ++ doCommand .sinit

/-- The bus word of four bytes, the first one lowest (R55 b). -/
def wordOfBytes (b0 b1 b2 b3 : Byte) : Word := b3 ++ b2 ++ b1 ++ b0

/-- `LDBUF b0 .. b(n-1)`: ceil(n/4) buffer words, bytes past n-1 written as 0 (R81). -/
def ldbuf (bs : List Byte) : List HostStep :=
  (List.range ((bs.length + 3) / 4)).map fun w =>
    .wr (0x0400 + 4 * w)
      (wordOfBytes (bs.getD (4 * w) 0) (bs.getD (4 * w + 1) 0) (bs.getD (4 * w + 2) 0) (bs.getD (4 * w + 3) 0))

/-- `ABSORB_BUF n` (R81). -/
def absorbBuf (n : Nat) : List HostStep := setArg (BitVec.ofNat 32 n) ++ doCommand .absorb

/-- `SQUEEZE_BUF n` (R81). -/
def squeezeBuf (n : Nat) : List HostStep := setArg (BitVec.ofNat 32 n) ++ doCommand .squeeze

/-- `LDPOLY p, c0 .. c255` (R81). -/
def ldpoly (p : PReg) (c : Coeffs) : List HostStep :=
  (List.finRange 256).map fun k => .wr (0x2000 + 0x400 * p.val + 4 * k.val) (word32 (c k))

/-- A message cut into chunks of at most 1024 bytes, in order; `fuel` bounds their number. R81 fixes no cut: that every chunk
but the last is full, and that the empty message has none, is a DESIGN CHOICE of the model, log entry 22. -/
def chunks : Nat → List Byte → List (List Byte)
  | 0, _ => []
  | _ + 1, [] => []
  | fuel + 1, b :: m => (b :: m).take Config.iobufBytes :: chunks fuel ((b :: m).drop Config.iobufBytes)

/-- `XOF v, m, nout`, for nout ≤ 1024 (R81), the message cut as `chunks` cuts it (log entry 22). -/
def xof (v : Word) (m : List Byte) (nout : Nat) : List HostStep :=
  spongeInit v ++ (chunks m.length m).flatMap (fun c => ldbuf c ++ absorbBuf c.length)
    ++ doCommand .final ++ squeezeBuf nout

/-- The bus events of one host step, where a WAIT reads STATUS `polls` times before the core completes the command and
once after (R80; 70_reset_and_hazards.md R188: any finite number). Log entry 20. -/
def HostStep.events (polls : Nat) : HostStep → List Event
  | .wr off w => [.host (.write 4 off w)]
  | .rd off => [.host (.read 4 off)]
  | .wait => List.replicate polls (.host (.read 4 0x000C)) ++ [.core, .host (.read 4 0x000C)]

/-- The agenda of a host program that waits after each command. -/
def hostAgenda (polls : Nat) (prog : List HostStep) : List Event := prog.flatMap (HostStep.events polls)

end Sys2Proof.Machine
end

