-- ==== Sys2Proof/Safety.lean ====
section
/-! DEFINITION. What a sound state is (10_state.md R38, R39) and which runs are safe, in the terms the statements use. -/

namespace Sys2Proof

/-- Which polynomial registers a command may write (R25, R141 to R144). -/
def Instr.destinations : Instr → List PReg
  | .permute => []
  | .sinit => []
  | .absorb => []
  | .final => []
  | .squeeze => []
  | .padd d _ _ => [d]
  | .pmul d _ _ => [d]
  | .pred d _ => [d]
  | .p2r d e _ => [d, e]

end Sys2Proof

namespace Sys2Proof.Machine

/-- The sponge invariants (a), (b), (c) of R38. -/
abbrev State.SpongeInv (s : State) : Prop :=
  (s.rate = 0 ↔ s.phase = .idle) ∧
  (s.phase ≠ .idle → (s.rate = 136 ∨ s.rate = 168) ∧ s.cursor.toNat < s.rate.toNat) ∧
  (s.phase = .idle → s.cursor = 0)

/-- While reset is asserted no command is in flight (R180: BUSY takes its reset value 0). -/
abbrev State.ResetInv (s : State) : Prop := s.resetPin = true → s.busy = false

/-- The invariant every step keeps. -/
abbrev State.Inv (s : State) : Prop := s.SpongeInv ∧ s.ResetInv

/-- A polynomial register is canonical: every coefficient, read as signed, lies in [0, Q) (R39). -/
abbrev Canonical (v : Poly) : Prop := ∀ k : Fin 256, 0 ≤ v[k].toInt ∧ v[k].toInt < Config.Q

/-- An access KSR1 gives a meaning: 32 bits, word-aligned, inside the window (R50, R56). -/
abbrev Access.Ok : Access → Prop
  | .read bytes off => bytes = 4 ∧ off % 4 = 0 ∧ off < Config.window
  | .write bytes off _ => bytes = 4 ∧ off % 4 = 0 ∧ off < Config.window

/-- An event that stops no run: the core's turn, an edge of reset, or a supported access. -/
abbrev Event.Ok : Event → Prop
  | .host a => a.Ok
  | .core => True
  | .assertReset => True
  | .releaseReset => True

/-- `k` steps of the machine. -/
abbrev runSteps (k : Nat) (s : State) : Host.Outcome State Fault Refusal := Host.Core.run Sys2Proof.core k s

end Sys2Proof.Machine
end

