-- ==== Sys2Proof/Reference.lean ====
section
/-! DEFINITION. The spec's own pseudo-code and the published constructions in their literal form, for statements that compare
the machine with them; no meaning calls anything of this file. -/

namespace Sys2Proof.Reference

open Sys2Proof.Machine

/-- The inner statement of R142's two loops: `c[i+j] += a[i]*b[j]`, or `c[i+j-256] -= a[i]*b[j]`. -/
def pmulInner (a b : Coeffs) (i j : Fin 256) (c : Coeffs) : Coeffs := fun k =>
  if i.val + j.val < 256 then
    if k.val = i.val + j.val then c k + a i * b j else c k
  else if k.val = i.val + j.val - 256 then c k - a i * b j else c k

/-- The two nested loops of R142, from c = 0. -/
def pmulLoop (a b : Coeffs) : Coeffs :=
  (List.finRange 256).foldl
    (fun c i => (List.finRange 256).foldl (fun c j => pmulInner a b i j c) c) (fun _ => 0)

/-- The point (x, y) after t turns of the walk that R102 gives: from (1, 0), `(x, y) <- (y, (2x + 3y) mod 5)`. -/
def rhoWalk : Nat → Nat × Nat
  | 0 => (1, 0)
  | t + 1 => ((rhoWalk t).2, (2 * (rhoWalk t).1 + 3 * (rhoWalk t).2) % 5)

/-- One step of the LFSR of R105, with polynomial x^8 + x^6 + x^5 + x^4 + 1. -/
def lfsrStep (r : BitVec 8) : BitVec 8 := (r <<< 1) ^^^ (if r.getLsbD 7 then 0x71 else 0)

/-- The LFSR's state after t steps, from 1. -/
def lfsr : Nat → BitVec 8
  | 0 => 1
  | t + 1 => lfsrStep (lfsr t)

/-- `rc(t)`: the output bit of step t mod 255 (R105). -/
def rcBit (t : Nat) : Bool := (lfsr (t % 255)).getLsbD 0

/-- The lanes whose byte i is `f i` (R21). -/
def lanesOfBytes (f : Nat → Byte) : Lanes :=
  tabulate fun i => f (8 * i + 7) ++ f (8 * i + 6) ++ f (8 * i + 5) ++ f (8 * i + 4) ++ f (8 * i + 3) ++ f (8 * i + 2)
    ++ f (8 * i + 1) ++ f (8 * i)

/-- A block XORed into the front of the state. -/
def xorBlock (A : Lanes) (block : List Byte) : Lanes := lanesOfBytes fun i => stateByte A i ^^^ block.getD i 0

/-- The message padded to a multiple of the rate: the suffix 0x1F, zeros, and the top bit of the last byte. -/
def padded (rate : Nat) (m : List Byte) : List Byte :=
  let q := rate - m.length % rate
  if q = 1 then m ++ [0x9F] else m ++ [0x1F] ++ List.replicate (q - 2) 0 ++ [0x80]

/-- The published sponge, absorbing block by block: XOR one block of `rate` bytes, permute; `n` blocks of `p`. -/
def absorbBlocks (rate : Nat) : Nat → List Byte → Lanes → Lanes
  | 0, _, A => A
  | n + 1, p, A => absorbBlocks rate n (p.drop rate) (keccakF (xorBlock A (p.take rate)))

/-- Output byte j of the published SHAKE at a rate: byte j mod rate of the state permuted j / rate times more. -/
def shakeByte (rate : Nat) (m : List Byte) (j : Nat) : Byte :=
  let p := padded rate m
  stateByte (keccakF^[j / rate] (absorbBlocks rate (p.length / rate) p (Vector.replicate 25 0))) (j % rate)

/-- The I/O buffer after the host has written `bs` to its front (R53). -/
def loadBytes (iob : Vector Byte 1024) (bs : List Byte) : Vector Byte 1024 :=
  tabulate fun k => bs.getD k iob[k]

/-- A state with `bs` at the front of the buffer and its length as the argument. -/
def withInput (bs : List Byte) (s : State) : State :=
  { s with iob := loadBytes s.iob bs, pendArg := BitVec.ofNat 32 bs.length }

/-- A state with `n` as the argument. -/
def withArgument (n : Nat) (s : State) : State := { s with pendArg := BitVec.ofNat 32 n }

/-- Go on with `f` where the machine answered a next state. -/
def andThen (o : Host.Outcome State Fault Refusal) (f : State → Host.Outcome State Fault Refusal) :
    Host.Outcome State Fault Refusal :=
  match o with
  | .next s => f s
  | .fault r => .fault r
  | .refused r => .refused r

/-- ABSORB of several byte strings, one after another, each put into the buffer first. -/
def absorbAll : List (List Byte) → State → Host.Outcome State Fault Refusal
  | [], s => .next s
  | c :: cs, s => andThen (exec .absorb (withInput c s)) (absorbAll cs)

/-- The commands of `XOF v, m, n` in their order, m given as the list of its chunks, cut in any way (R81, R127). -/
def xofCommands (v : Nat) (cs : List (List Byte)) (n : Nat) (s : State) : Host.Outcome State Fault Refusal :=
  andThen (andThen (andThen (exec .sinit (withArgument v s)) (absorbAll cs)) (exec .final))
    fun u => exec .squeeze (withArgument n u)

/-- A command word that R161 calls ILLEGAL: reserved bits set, OP unassigned, or P2R with D = E. -/
def illegalWord (w : Word) : Prop :=
  w.extractLsb' 20 12 ≠ 0 ∨
  w.extractLsb' 0 8 ∉ ([0x01, 0x02, 0x03, 0x04, 0x05, 0x10, 0x11, 0x12, 0x13] : List (BitVec 8)) ∨
  (w.extractLsb' 0 8 = 0x13 ∧ w.extractLsb' 8 3 = w.extractLsb' 17 3)

/-- The one code a command word reports in a phase with argument `n`: the first that applies in the order of R166, with
the causes of R161 to R164. -/
def errorOf (w : Word) (phase : Phase) (n : Nat) : ErrCode :=
  let op := w.extractLsb' 0 8
  if w.extractLsb' 20 12 ≠ 0 then .illegal
  else if op ∉ ([0x01, 0x02, 0x03, 0x04, 0x05, 0x10, 0x11, 0x12, 0x13] : List (BitVec 8)) then .illegal
  else if op = 0x13 ∧ w.extractLsb' 8 3 = w.extractLsb' 17 3 then .illegal
  else if op = 0x03 ∧ phase ≠ .absorbing then .protocol
  else if op = 0x04 ∧ phase ≠ .absorbing then .protocol
  else if op = 0x05 ∧ phase ≠ .finalized ∧ phase ≠ .squeezing then .protocol
  else if (op = 0x03 ∨ op = 0x05) ∧ n > 1024 then .range
  else if op = 0x02 ∧ n ≠ 128 ∧ n ≠ 256 then .config
  else .ok

/-- The phase a command leaves (R120): the table, and the same phase wherever the command is not listed, reports an
error, or is PERMUTE or a ring command. -/
def phaseAfter (i : Instr) (phase : Phase) (n : Nat) : Phase :=
  match i, phase with
  | .sinit, p => if n = 128 ∨ n = 256 then .absorbing else p
  | .final, .absorbing => .finalized
  | .squeeze, .finalized => if n ≤ 1024 then .squeezing else .finalized
  | _, p => p

/-- The commands legal in each phase (R120, R162). -/
def phaseAllows (i : Instr) (phase : Phase) : Bool :=
  match i, phase with
  | .absorb, p => p == .absorbing
  | .final, p => p == .absorbing
  | .squeeze, p => p == .finalized || p == .squeezing
  | _, _ => true

/-- Every byte of the window outside the given range of offsets reads as before, but for STATUS (offsets 0x000C to
0x000F), which every command writes. -/
def sameWindowOutside (s t : State) (lo hi : Nat) : Prop :=
  ∀ a, ¬(lo ≤ a ∧ a < hi) → ¬(0x000C ≤ a ∧ a < 0x0010) → t.windowByte a = s.windowByte a

/-- What no command writes: ARG (R27), OVR (R32), the pending command and its argument (R31), and the fields of the
model's own but for the count of free draws. -/
def sameControl (s t : State) : Prop :=
  t.arg = s.arg ∧ t.ovr = s.ovr ∧ t.pendCmd = s.pendCmd ∧ t.pendArg = s.pendArg ∧ t.resetPin = s.resetPin ∧
  t.agenda = s.agenda ∧ t.readData = s.readData

/-- What only the sponge commands and PERMUTE write, with the hidden counters of the permutation core and the count of
free draws. -/
def sameSponge (s t : State) : Prop :=
  t.lanes = s.lanes ∧ t.rate = s.rate ∧ t.cursor = s.cursor ∧ t.phase = s.phase ∧ t.round = s.round ∧
  t.stepIndex = s.stepIndex ∧ t.draws = s.draws

/-- An offset the map of R51 does not list. -/
def reservedOffset (off : Nat) : Prop :=
  (0x0014 ≤ off ∧ off < 0x0100) ∨ (0x01C8 ≤ off ∧ off < 0x0400) ∨ (0x0800 ≤ off ∧ off < 0x2000)

end Sys2Proof.Reference
end

