-- ==== Sys2Proof/Certificates/Slice0/Obligations.lean ====
section
/-! DEFINITION. The statements for the provers. `R<n>` cites a numbered rule of spec/. -/

open Sys2Proof Sys2Proof.Machine Sys2Proof.Reference

/-! ### Encoding (30_encoding.md) -/

/-- Every well-formed command's word decodes to it, with every operand at every value (R79, R74). -/
def Obligations.DecodeOfEncode : Prop :=
  ∀ i : Instr, i.WellFormed → decode (encode i) = .instr i

/-- A decoded word is its command's encoding on the bits the opcode uses, and the decoder gives well-formed commands
only (R70, R73, R79). -/
def Obligations.EncodeOfDecode : Prop :=
  ∀ (w : Word) (i : Instr), decode w = .instr i → i.WellFormed ∧ encode i = w &&& i.usedMask

/-- R73: two words that agree on the bits an opcode uses mean the same command, and the core's turn leaves the same
state whichever of them is pending, but for the pending word itself. -/
def Obligations.UnusedFieldsAreIgnored : Prop :=
  ∀ (w w' : Word) (i : Instr), decode w = .instr i → (w ^^^ w') &&& i.usedMask = 0 →
    decode w' = .instr i ∧
    ∀ s : State, s.agenda = [] → s.busy = true → s.resetPin = false → s.pendCmd = w →
      ∃ t, step s = .next t ∧ step { s with pendCmd := w' } = .next { t with pendCmd := w' }

/-- Words written out in R79 and R82 decode to the commands they stand for, or are rejected. -/
def Obligations.DecodeOfSpecWords : Prop :=
  decode 0x00000001 = .instr .permute ∧ decode 0x00000002 = .instr .sinit ∧ decode 0x00000003 = .instr .absorb ∧
  decode 0x00000004 = .instr .final ∧ decode 0x00000005 = .instr .squeeze ∧
  decode 0x00004211 = .instr (.pmul 2 0 1) ∧ decode 0x00005310 = .instr (.padd 3 2 1) ∧
  decode 0x00001512 = .instr (.pred 5 2) ∧ decode 0x00081313 = .instr (.p2r 3 4 2) ∧
  decode 0x000FFF01 = .instr .permute ∧ decode 0x00100001 = .reject .reservedBits ∧
  decode 0x00000006 = .reject .unassignedOp ∧ decode 0x00060313 = .reject .p2rSameDestination ∧
  decode 0xFFF04201 = .reject .reservedBits

/-- R161, R72: a word with reserved bits set, an unassigned OP, or P2R with D = E completes with ERR = ILLEGAL and
changes nothing else: with the agenda empty, or with the core's turn at its head, which it removes (the agenda is the
model's own, log entries 1 and 2). -/
def Obligations.IllegalWordSetsErrOnly : Prop :=
  ∀ s : State, s.busy = true → s.resetPin = false → illegalWord s.pendCmd →
    (s.agenda = [] → step s = .next { s with err := .illegal, busy := false }) ∧
    (∀ rest, s.agenda = .core :: rest → step s = .next { s with agenda := rest, err := .illegal, busy := false })

/-! ### The step (10_state.md R31, R40, R41) -/

/-- When PEND_CMD decodes to `i` while BUSY = 1, the core's turn is `exec i`: with the agenda empty, or with the core's
turn at its head, which it removes (R40; the agenda is the model's own, log entries 1 and 2). -/
def Obligations.StepRunsDecodedCommand : Prop :=
  ∀ (s : State) (i : Instr), s.busy = true → s.resetPin = false → decode s.pendCmd = .instr i →
    (s.agenda = [] → step s = exec i s) ∧
    (∀ rest, s.agenda = .core :: rest → step s = exec i { s with agenda := rest })

/-- "When BUSY = 0, the core has no step" (R40): its turn changes nothing (log entries 1 and 2 for the agenda). -/
def Obligations.IdleCoreHasNoStep : Prop :=
  ∀ s : State, s.busy = false →
    (s.agenda = [] → step s = .next s) ∧
    (∀ rest, s.agenda = .core :: rest → step s = .next { s with agenda := rest })

/-- A host write to CMD while BUSY = 0 is accepted: it latches PEND_CMD and PEND_ARG, clears OVR, sets BUSY, and
changes nothing else (R31). -/
def Obligations.CmdWriteIsAccepted : Prop :=
  ∀ (s : State) (w : Word) (rest : List Event), s.busy = false → s.resetPin = false →
    s.agenda = .host (.write 4 0x0004 w) :: rest →
    step s = .next { s with agenda := rest, pendCmd := w, pendArg := s.arg, ovr := false, busy := true }

/-- `DO cmd` (R80, R81): from an idle machine, after the CMD write, any number of polls and the core's turn, the machine
is where the command's own effect on the accepted command leaves it, but for the polls' draws and answers; and the
WAIT ends with a STATUS word whose bit 0 is 0. Log entry 20 for the agenda of a WAIT. -/
def Obligations.DoCommandCompletes : Prop :=
  ∀ (s : State) (i : Instr) (polls : Nat) (rest : List Event), i.WellFormed → s.busy = false → s.resetPin = false →
    s.agenda = hostAgenda polls (doCommand i) ++ rest →
    ∃ t u, exec i { s with agenda := rest, pendCmd := encode i, pendArg := s.arg, ovr := false, busy := true } = .next u ∧
      runSteps (polls + 3) s = .next t ∧ t.readData.getLsbD 0 = false ∧ t.lanes = u.lanes ∧ t.rate = u.rate ∧
      t.cursor = u.cursor ∧ t.phase = u.phase ∧ t.polys = u.polys ∧ t.iob = u.iob ∧ t.arg = u.arg ∧ t.busy = u.busy ∧
      t.ovr = u.ovr ∧ t.err = u.err ∧ t.agenda = rest

/-! ### The register window (20_memory.md) -/

/-- R65: a host write while BUSY = 1 is ignored, whatever its offset, and sets OVR. -/
def Obligations.BusyWriteSetsOvrOnly : Prop :=
  ∀ (s : State) (off : Nat) (w : Word) (rest : List Event), s.busy = true → s.resetPin = false →
    off % 4 = 0 → off < 0x4000 → s.agenda = .host (.write 4 off w) :: rest →
    step s = .next { s with agenda := rest, ovr := true }

/-- R32: OVR changes in three ways only: a host write while BUSY = 1 sets it and does nothing else, the next accepted CMD
write clears it, and reset clears it; it is 0 after reset. -/
def Obligations.OvrIsSticky : Prop :=
  State.reset.ovr = false ∧
  (∀ (s : State) (off : Nat) (w : Word) (rest : List Event), s.busy = true → s.resetPin = false → off % 4 = 0 →
    off < 0x4000 → s.agenda = .host (.write 4 off w) :: rest → step s = .next { s with agenda := rest, ovr := true }) ∧
  (∀ (s : State) (w : Word) (rest : List Event), s.busy = false → s.resetPin = false →
    s.agenda = .host (.write 4 0x0004 w) :: rest → ∃ t, step s = .next t ∧ t.busy = true ∧ t.ovr = false) ∧
  ∀ s t : State, step s = .next t → t.ovr ≠ s.ovr →
    (∃ off w rest, s.busy = true ∧ s.agenda = .host (.write 4 off w) :: rest ∧ t.ovr = true) ∨
    (∃ w rest off, s.busy = false ∧ s.agenda = .host (.write 4 off w) :: rest ∧ regionOf off = .cmd ∧ t.ovr = false) ∨
    (∃ rest, s.agenda = .assertReset :: rest ∧ t.ovr = false)

/-- R66: what a host read returns while BUSY = 1, where it is specified; the read changes nothing of KSR1's. -/
def Obligations.BusyReadsAreExactWhereSpecified : Prop :=
  ∀ (s : State) (off : Nat) (rest : List Event), s.busy = true → s.resetPin = false →
    off % 4 = 0 → off < 0x4000 → s.agenda = .host (.read 4 off) :: rest →
    ∃ w n, step s = .next { s with agenda := rest, readData := w, draws := n } ∧
      (off = 0x0000 → w = 0x4B535231) ∧ (off = 0x0008 → w = s.arg) ∧
      (off = 0x0004 ∨ reservedOffset off → w = 0) ∧
      (off = 0x000C → w.getLsbD 0 = true ∧ w.getLsbD 1 = s.ovr ∧ w.extractLsb' 2 2 = 0 ∧
        w.extractLsb' 10 6 = 0 ∧ w.extractLsb' 24 8 = 0)

/-- R57, R58, R30: reserved offsets read 0 and ignore writes; ID, STATUS and RATE ignore writes; ID reads its constant;
CMD reads 0 (while BUSY = 0); a write to a reserved offset while BUSY = 1 sets OVR. And R51's row of RATE: its word has
RATE in bits [7:0] and zeros above. -/
def Obligations.ReservedAndReadOnlyOffsets : Prop :=
  ∀ (s : State) (off : Nat) (w : Word) (rest : List Event), s.resetPin = false → off % 4 = 0 →
    (s.busy = false → (reservedOffset off ∨ off = 0x0000 ∨ off = 0x000C ∨ off = 0x0010) →
      s.agenda = .host (.write 4 off w) :: rest → step s = .next { s with agenda := rest }) ∧
    (s.busy = true → reservedOffset off → s.agenda = .host (.write 4 off w) :: rest →
      step s = .next { s with agenda := rest, ovr := true }) ∧
    (s.busy = false → (reservedOffset off ∨ off = 0x0004) → s.agenda = .host (.read 4 off) :: rest →
      step s = .next { s with agenda := rest, readData := 0 }) ∧
    (s.busy = false → off = 0x0000 → s.agenda = .host (.read 4 off) :: rest →
      step s = .next { s with agenda := rest, readData := 0x4B535231 }) ∧
    (s.busy = false → off = 0x0010 → s.agenda = .host (.read 4 off) :: rest →
      step s = .next { s with agenda := rest, readData := s.rate.setWidth 32 })

/-- While BUSY = 0 no read has a side effect, and two reads of one offset return the same word (R59). -/
def Obligations.IdleReadsAreIdempotent : Prop :=
  ∀ (s : State) (off : Nat) (rest : List Event), s.busy = false → s.resetPin = false → off % 4 = 0 → off < 0x4000 →
    s.agenda = .host (.read 4 off) :: .host (.read 4 off) :: rest →
    ∃ w, step s = .next { s with agenda := .host (.read 4 off) :: rest, readData := w } ∧
      runSteps 2 s = .next { s with agenda := rest, readData := w }

/-- R29: the fields of STATUS, the word a host reads at 0x000C while BUSY = 0, and its reserved bits. -/
def Obligations.StatusLayout : Prop :=
  ∀ (s : State) (rest : List Event), s.busy = false → s.resetPin = false →
    (∀ w, s.agenda = .host (.write 4 0x000C w) :: rest → step s = .next { s with agenda := rest }) ∧
    (s.agenda = .host (.read 4 0x000C) :: rest →
      ∃ w : Word, step s = .next { s with agenda := rest, readData := w } ∧
        w.getLsbD 0 = s.busy ∧ w.getLsbD 1 = s.ovr ∧ w.extractLsb' 2 2 = 0 ∧
        w.extractLsb' 4 4 =
          (match s.err with | .ok => 0 | .illegal => 1 | .protocol => 2 | .range => 3 | .config => 4) ∧
        w.extractLsb' 8 2 =
          (match s.phase with | .idle => 0 | .absorbing => 1 | .finalized => 2 | .squeezing => 3) ∧
        w.extractLsb' 10 6 = 0 ∧ w.extractLsb' 16 8 = s.cursor ∧ w.extractLsb' 24 8 = 0)

/-- R27: ARG reads back what was written, no command writes it, SINIT, ABSORB and SQUEEZE alone depend on it, an
accepted CMD write takes its value, and reset clears it. -/
def Obligations.ArgRegister : Prop :=
  (∀ (s : State) (v : Word) (rest : List Event), s.busy = false → s.resetPin = false →
    s.agenda = .host (.write 4 0x0008 v) :: .host (.read 4 0x0008) :: rest →
    runSteps 2 s = .next { s with agenda := rest, arg := v, readData := v }) ∧
  (∀ (i : Instr) (s t : State), exec i s = .next t → t.arg = s.arg) ∧
  (∀ (i : Instr) (s : State) (v : Word), i ≠ .sinit → i ≠ .absorb → i ≠ .squeeze →
    ∃ t, exec i s = .next t ∧ exec i { s with pendArg := v } = .next { t with pendArg := v }) ∧
  (∀ (s : State) (w : Word) (rest : List Event), s.busy = false → s.resetPin = false →
    s.agenda = .host (.write 4 0x0004 w) :: rest → ∃ t, step s = .next t ∧ t.pendArg = s.arg) ∧
  State.reset.arg = 0

/-- R52: word w of the lane window is half a lane, four state bytes, and state byte i is the window's byte at 0x0100 + i;
a write replaces those 32 bits and leaves the rest of the state. -/
def Obligations.LaneWindow : Prop :=
  ∀ (s : State) (w : Nat) (x : Word) (rest : List Event) (hw : w < 50), s.busy = false → s.resetPin = false →
    (∀ i < 200, s.windowByte (0x0100 + i) = stateByte s.lanes i) ∧
    (s.agenda = .host (.read 4 (0x0100 + 4 * w)) :: rest →
      ∃ v, step s = .next { s with agenda := rest, readData := v } ∧
        v = (s.lanes[w / 2]).extractLsb' (32 * (w % 2)) 32 ∧
        v = stateByte s.lanes (4 * w + 3) ++ stateByte s.lanes (4 * w + 2) ++ stateByte s.lanes (4 * w + 1)
          ++ stateByte s.lanes (4 * w)) ∧
    (s.agenda = .host (.write 4 (0x0100 + 4 * w) x) :: rest →
      ∃ A, step s = .next { s with agenda := rest, lanes := A } ∧
        (A[w / 2]).extractLsb' (32 * (w % 2)) 32 = x ∧
        ∀ i < 200, stateByte A i = if i / 4 = w then x.extractLsb' (8 * (i % 4)) 8 else stateByte s.lanes i)

/-- R53: word w of the buffer window is four buffer bytes; a write replaces them and leaves the rest. -/
def Obligations.BufferWindow : Prop :=
  ∀ (s : State) (w : Nat) (x : Word) (rest : List Event) (hw : w < 256), s.busy = false → s.resetPin = false →
    (s.agenda = .host (.read 4 (0x0400 + 4 * w)) :: rest →
      step s = .next { s with agenda := rest,
                              readData := s.iob[4 * w + 3] ++ s.iob[4 * w + 2] ++ s.iob[4 * w + 1] ++ s.iob[4 * w] }) ∧
    (s.agenda = .host (.write 4 (0x0400 + 4 * w) x) :: rest →
      ∃ iob : Vector Byte 1024, step s = .next { s with agenda := rest, iob := iob } ∧
        ∀ (k : Nat) (hk : k < 1024), iob[k] = if k / 4 = w then x.extractLsb' (8 * (k % 4)) 8 else s.iob[k])

/-- R54: the word at 0x2000 + 0x400 p + 4 k is P[p][k]; a write replaces it, whatever its value, and nothing else. -/
def Obligations.PolynomialWindow : Prop :=
  ∀ (s : State) (p : PReg) (k : Fin 256) (x : Word) (rest : List Event), s.busy = false → s.resetPin = false →
    (s.agenda = .host (.read 4 (0x2000 + 0x400 * p.val + 4 * k.val)) :: rest →
      step s = .next { s with agenda := rest, readData := s.polys[p][k] }) ∧
    (s.agenda = .host (.write 4 (0x2000 + 0x400 * p.val + 4 * k.val) x) :: rest →
      ∃ ps : Vector Poly 8, step s = .next { s with agenda := rest, polys := ps } ∧
        ∀ (q : PReg) (j : Fin 256), ps[q][j] = if q = p ∧ j = k then x else s.polys[q][j])

/-- The window is little-endian (R52 to R55): its byte at 0x0100 + i is state byte i, its byte at 0x0400 + k is buffer
byte k, and its bytes at a coefficient are that word's bytes, lowest first. -/
def Obligations.WindowByteOrder : Prop :=
  ∀ s : State,
    (∀ i < 200, s.windowByte (0x0100 + i) = stateByte s.lanes i) ∧
    (∀ (k : Nat) (hk : k < 1024), s.windowByte (0x0400 + k) = s.iob[k]) ∧
    (∀ (p : PReg) (k : Fin 256) (j : Nat), j < 4 →
      s.windowByte (0x2000 + 0x400 * p.val + 4 * k.val + j) = (s.polys[p][k]).extractLsb' (8 * j) 8)

/-- R56: an access that is not 32 bits wide or not word-aligned is refused; an aligned 32-bit access to the window is
made. -/
def Obligations.OnlyAlignedWordAccesses : Prop :=
  ∀ (s : State) (bytes off : Nat) (w : Word) (rest : List Event),
    (bytes ≠ 4 ∨ off % 4 ≠ 0 →
      (s.agenda = .host (.read bytes off) :: rest → step s = .refused .unsupportedAccess) ∧
      (s.agenda = .host (.write bytes off w) :: rest → step s = .refused .unsupportedAccess)) ∧
    (bytes = 4 ∧ off % 4 = 0 → off < 0x4000 →
      (s.agenda = .host (.read bytes off) :: rest → ∃ t, step s = .next t) ∧
      (s.agenda = .host (.write bytes off w) :: rest → ∃ t, step s = .next t))

/-! ### The permutation core (41_permutation.md) -/

/-- R101 to R105: the five steps lane by lane; ρ's offsets as the table gives them and as the walk produces them; ι's
constants as the table gives them and as the LFSR produces them. -/
def Obligations.KeccakStepRules : Prop :=
  ∀ A : Lanes,
    (∀ x y, x < 5 → y < 5 →
      let c := fun x => laneAt A x 0 ^^^ laneAt A x 1 ^^^ laneAt A x 2 ^^^ laneAt A x 3 ^^^ laneAt A x 4
      laneAt (theta A) x y = laneAt A x y ^^^ (c ((x + 4) % 5) ^^^ rol64 (c ((x + 1) % 5)) 1)) ∧
    (∀ i : Fin 25, (rho A)[i] = rol64 A[i] (([0, 1, 62, 28, 27, 36, 44, 6, 55, 20, 3, 10, 43, 25, 39, 41, 45, 15, 21, 8,
      18, 2, 61, 56, 14] : List Nat).getD i 0)) ∧
    (laneAt (rho A) 0 0 = laneAt A 0 0 ∧
      ∀ t < 24, let x := (rhoWalk t).1; let y := (rhoWalk t).2
        laneAt (rho A) x y = rol64 (laneAt A x y) ((t + 1) * (t + 2) / 2 % 64)) ∧
    (∀ x y, x < 5 → y < 5 → laneAt (pi A) y ((2 * x + 3 * y) % 5) = laneAt A x y) ∧
    (∀ x y, x < 5 → y < 5 →
      laneAt (chi A) x y = laneAt A x y ^^^ (~~~ laneAt A ((x + 1) % 5) y &&& laneAt A ((x + 2) % 5) y)) ∧
    (∀ ir : Fin 24,
      (∀ row ∈ ([
          (0, 0x1, 12, 0x8000808B), (1, 0x8082, 13, 0x800000000000008B),
          (2, 0x800000000000808A, 14, 0x8000000000008089), (3, 0x8000000080008000, 15, 0x8000000000008003),
          (4, 0x808B, 16, 0x8000000000008002), (5, 0x80000001, 17, 0x8000000000000080),
          (6, 0x8000000080008081, 18, 0x800A), (7, 0x8000000000008009, 19, 0x800000008000000A),
          (8, 0x8A, 20, 0x8000000080008081), (9, 0x88, 21, 0x8000000000008080),
          (10, 0x80008009, 22, 0x80000001), (11, 0x8000000A, 23, 0x8000000080008008)] : List (Nat × Lane × Nat × Lane)),
        (ir.val = row.1 → laneAt (iota A ir) 0 0 = laneAt A 0 0 ^^^ row.2.1) ∧
        (ir.val = row.2.2.1 → laneAt (iota A ir) 0 0 = laneAt A 0 0 ^^^ row.2.2.2)) ∧
      (∀ x y, x < 5 → y < 5 → (x ≠ 0 ∨ y ≠ 0) → laneAt (iota A ir) x y = laneAt A x y) ∧
      (∀ j < 7, (laneAt (iota A ir) 0 0 ^^^ laneAt A 0 0).getLsbD (2 ^ j - 1) = rcBit (j + 7 * ir.val)) ∧
      (∀ b < 64, (∀ j < 7, b ≠ 2 ^ j - 1) → (laneAt (iota A ir) 0 0 ^^^ laneAt A 0 0).getLsbD b = false))

/-- R107: KeccakF of the all-zero state, all 25 lanes (95_test_vectors.md section 2.1). -/
def Obligations.KeccakKnownAnswer : Prop :=
  (keccakF (Vector.replicate 25 0)).toList =
    ([[0xF1258F7940E1DDE7, 0x84D5CCF933C0478A, 0xD598261EA65AA9EE, 0xBD1547306F80494D, 0x8B284E056253D057],
      [0xFF97A42D7F8E6FD4, 0x90FEE5A0A44647C4, 0x8C5BDA0CD6192E76, 0xAD30A6F71B19059C, 0x30935AB7D08FFC64],
      [0xEB5AA93F2317D635, 0xA9A6E6260D712103, 0x81A57C16DBCF555F, 0x43B831CD0347C826, 0x01F22F1A11A5569F],
      [0x05E5635A21D9AE61, 0x64BEFEF28CC970F2, 0x613670957BC46611, 0xB87C5A554FD00ECB, 0x8C3EE88A1CCF32C8],
      [0x940C7922AE3A2614, 0x1841F924A2C509E4, 0x16F53526E70465C2, 0x75F644E97F30A13B, 0xEAF1FF7B5CECA249]] : List (List Lane)).flatten

/-- KeccakF is a bijection on the 2^1600 states (R100). -/
def Obligations.KeccakIsBijective : Prop := Function.Bijective keccakF

/-- The 24-round, 5-step state machine with a round counter and a step index computes KeccakF in 120 steps
(41_permutation.md, opening; R34, R100). -/
def Obligations.StepMachineComputesKeccak : Prop :=
  ∀ A : Lanes, (KeccakUnit.ticks 120 { lanes := A, round := 0, step := .theta }).lanes = keccakF A

/-- PERMUTE completes in every phase: the lanes become KeccakF of the lanes, ERR is 0, and everything else stays but for
the hidden counters of the permutation core, whose values are unspecified (R108; R34). -/
def Obligations.PermuteResult : Prop :=
  ∀ s : State, ∃ t, exec .permute s = .next t ∧ t.lanes = keccakF s.lanes ∧ t.err = .ok ∧ t.busy = false ∧
    t.rate = s.rate ∧ t.cursor = s.cursor ∧ t.phase = s.phase ∧ t.polys = s.polys ∧ t.iob = s.iob ∧
    sameControl s t ∧ sameWindowOutside s t 0x0100 0x01C8

/-! ### The sponge engine (42_sponge.md) -/

/-- R120: the phase each command leaves, in every phase and with every argument; a command not listed for a phase gives
PROTOCOL and changes nothing else, the listed ones never do; SINIT with an illegal ARG gives CONFIG and changes nothing
else; PERMUTE is legal in every phase; the ring commands do not read PHASE. -/
def Obligations.PhaseTransitions : Prop :=
  ∀ (i : Instr) (s : State), ∃ t, exec i s = .next t ∧ t.phase = phaseAfter i s.phase s.pendArg.toNat ∧
    (phaseAllows i s.phase = false → t = { s with err := .protocol, busy := false }) ∧
    (phaseAllows i s.phase = true → t.err ≠ .protocol) ∧
    (i = .sinit → s.pendArg ≠ 128 → s.pendArg ≠ 256 → t = { s with err := .config, busy := false }) ∧
    (i = .permute → t.err = .ok) ∧
    (i.destinations ≠ [] → ∀ p, exec i { s with phase := p } = .next { t with phase := p })

/-- R121: SINIT's word, its effect for the variants 128 and 256 in every phase, and CONFIG with no other change for
every other argument; the buffer and the polynomial registers are not touched. -/
def Obligations.SinitRule : Prop :=
  decode 0x00000002 = .instr .sinit ∧
  ∀ s : State, ∃ t, exec .sinit s = .next t ∧
    (s.pendArg = 128 ∨ s.pendArg = 256 →
      (∀ i : Fin 25, t.lanes[i] = 0) ∧ t.rate = (if s.pendArg = 128 then 168 else 136) ∧ t.cursor = 0 ∧
      t.phase = .absorbing ∧ t.err = .ok ∧ t.busy = false ∧ t.polys = s.polys ∧ t.iob = s.iob ∧ t.round = s.round ∧
      t.stepIndex = s.stepIndex ∧ t.draws = s.draws ∧ sameControl s t ∧
      ∀ a, ¬(0x0010 ≤ a ∧ a < 0x0014) → ¬(0x0100 ≤ a ∧ a < 0x01C8) → ¬(0x000C ≤ a ∧ a < 0x0010) →
        t.windowByte a = s.windowByte a) ∧
    (s.pendArg ≠ 128 → s.pendArg ≠ 256 → t = { s with err := .config, busy := false })

/-- ABSORB completes in phase ABSORBING for every n ≤ 1024: the cursor has moved n bytes round the rate window, ERR is 0,
and nothing but the lanes, CURSOR, ERR and BUSY (and the hidden counters) changes (R122). -/
def Obligations.AbsorbCompletes : Prop :=
  ∀ s : State, s.SpongeInv → s.phase = .absorbing → s.pendArg.toNat ≤ 1024 →
    ∃ t, exec .absorb s = .next t ∧ t.err = .ok ∧ t.busy = false ∧
      t.cursor.toNat = (s.cursor.toNat + s.pendArg.toNat) % s.rate.toNat ∧
      t.rate = s.rate ∧ t.phase = .absorbing ∧ t.iob = s.iob ∧ t.polys = s.polys ∧ sameControl s t ∧
      sameWindowOutside s t 0x0100 0x01C8

/-- ABSORB up to the end of the current block (R122, R129): the n input bytes are XORed into the state bytes from CURSOR
on and no other state byte is touched, the capacity among them; the permutation is then applied exactly when the
cursor has reached RATE, and only then is CURSOR 0. -/
def Obligations.AbsorbWithinBlock : Prop :=
  ∀ s : State, s.SpongeInv → s.phase = .absorbing → s.pendArg.toNat ≤ 1024 →
    s.cursor.toNat + s.pendArg.toNat ≤ s.rate.toNat →
    ∃ (A : Lanes) (t : State), exec .absorb s = .next t ∧
      (∀ i < 200, stateByte A i =
        if s.cursor.toNat ≤ i ∧ i < s.cursor.toNat + s.pendArg.toNat
        then stateByte s.lanes i ^^^ s.iob.getD (i - s.cursor.toNat) 0 else stateByte s.lanes i) ∧
      (s.cursor.toNat + s.pendArg.toNat < s.rate.toNat →
        t.lanes = A ∧ t.cursor.toNat = s.cursor.toNat + s.pendArg.toNat) ∧
      (s.cursor.toNat + s.pendArg.toNat = s.rate.toNat → t.lanes = keccakF A ∧ t.cursor = 0)

/-- R125: absorbing m1 then m2 leaves the same lanes and CURSOR as absorbing m1 ‖ m2 when that fits one command, and any
two ways of cutting one byte string into chunks of at most 1024 bytes leave the same lanes and CURSOR. -/
def Obligations.AbsorbIsAssociative : Prop :=
  ∀ s : State, s.phase = .absorbing →
    (∀ m1 m2 : List Byte, m1.length + m2.length ≤ 1024 →
      ∃ t u, andThen (exec .absorb (withInput m1 s)) (fun v => exec .absorb (withInput m2 v)) = .next t ∧
        exec .absorb (withInput (m1 ++ m2) s) = .next u ∧ t.lanes = u.lanes ∧ t.cursor = u.cursor) ∧
    (∀ cs ds : List (List Byte), (∀ c ∈ cs, c.length ≤ 1024) → (∀ d ∈ ds, d.length ≤ 1024) →
      cs.flatten = ds.flatten →
      ∃ t u, absorbAll cs s = .next t ∧ absorbAll ds s = .next u ∧ t.lanes = u.lanes ∧ t.cursor = u.cursor)

/-- FINAL completes in phase ABSORBING: 0x1F is XORed into the state byte at CURSOR and 0x80 into the last rate byte (one
byte takes both when they coincide), no other byte, and the permutation is applied once; CURSOR is 0, the phase
FINALIZED, ERR 0, and nothing else changes but the hidden counters (R123). -/
def Obligations.FinalResult : Prop :=
  ∀ s : State, s.SpongeInv → s.phase = .absorbing →
    ∃ (A : Lanes) (t : State), exec .final s = .next t ∧ t.lanes = keccakF A ∧
      (∀ i < 200, stateByte A i = stateByte s.lanes i ^^^ (if i = s.cursor.toNat then 0x1F else 0)
        ^^^ (if i = s.rate.toNat - 1 then 0x80 else 0)) ∧
      t.cursor = 0 ∧ t.phase = .finalized ∧ t.err = .ok ∧ t.busy = false ∧ t.rate = s.rate ∧ t.iob = s.iob ∧
      t.polys = s.polys ∧ sameControl s t ∧ sameWindowOutside s t 0x0100 0x01C8

/-- SQUEEZE completes in phases FINALIZED and SQUEEZING for every n ≤ 1024, n = 0 among them: the phase is SQUEEZING, the
cursor has moved n bytes round the rate window, IOB[n..1023] and everything else but the lanes is unchanged
(R124). -/
def Obligations.SqueezeCompletes : Prop :=
  ∀ s : State, s.SpongeInv → (s.phase = .finalized ∨ s.phase = .squeezing) → s.pendArg.toNat ≤ 1024 →
    ∃ t, exec .squeeze s = .next t ∧ t.err = .ok ∧ t.busy = false ∧ t.phase = .squeezing ∧
      t.cursor.toNat = (s.cursor.toNat + s.pendArg.toNat) % s.rate.toNat ∧ t.rate = s.rate ∧ t.polys = s.polys ∧
      (∀ k : Fin 1024, s.pendArg.toNat ≤ k.val → t.iob[k] = s.iob[k]) ∧ sameControl s t ∧
      ∀ a, ¬(0x0400 ≤ a ∧ a < 0x0400 + s.pendArg.toNat) → ¬(0x0100 ≤ a ∧ a < 0x01C8) →
        ¬(0x000C ≤ a ∧ a < 0x0010) → t.windowByte a = s.windowByte a

/-- SQUEEZE up to the end of the current block (R124, R129): IOB[k] is the state byte at CURSOR + k, never a byte of the
capacity; the lanes are permuted exactly when the cursor has reached RATE. -/
def Obligations.SqueezeWithinBlock : Prop :=
  ∀ s : State, s.SpongeInv → (s.phase = .finalized ∨ s.phase = .squeezing) → s.pendArg.toNat ≤ 1024 →
    s.cursor.toNat + s.pendArg.toNat ≤ s.rate.toNat →
    ∃ t, exec .squeeze s = .next t ∧
      (∀ k : Fin 1024, k.val < s.pendArg.toNat → t.iob[k] = stateByte s.lanes (s.cursor.toNat + k.val)) ∧
      (s.cursor.toNat + s.pendArg.toNat < s.rate.toNat →
        t.lanes = s.lanes ∧ t.cursor.toNat = s.cursor.toNat + s.pendArg.toNat) ∧
      (s.cursor.toNat + s.pendArg.toNat = s.rate.toNat → t.lanes = keccakF s.lanes ∧ t.cursor = 0)

/-- R126: squeezing L1 bytes and then L2 - L1 more returns, across the two buffer reads, the bytes of one SQUEEZE of L2
bytes, and leaves the same lanes and CURSOR. -/
def Obligations.SqueezePrefixProperty : Prop :=
  ∀ (s : State) (l1 l2 : Nat), (s.phase = .finalized ∨ s.phase = .squeezing) → l1 ≤ l2 → l2 ≤ 1024 →
    ∃ t u v, exec .squeeze (withArgument l1 s) = .next t ∧ exec .squeeze (withArgument (l2 - l1) t) = .next u ∧
      exec .squeeze (withArgument l2 s) = .next v ∧
      (t.iob.toList.take l1 ++ u.iob.toList.take (l2 - l1)) = v.iob.toList.take l2 ∧
      u.lanes = v.lanes ∧ u.cursor = v.cursor

/-- R127: for the variants 128 and 256, a message in chunks of at most 1024 bytes and n ≤ 1024, the commands of XOF put
the first n bytes of the published SHAKE of the message into IOB[0..n-1]. -/
def Obligations.XofIsShake : Prop :=
  ∀ (v : Nat) (cs : List (List Byte)) (n : Nat) (s : State), v = 128 ∨ v = 256 → (∀ c ∈ cs, c.length ≤ 1024) →
    n ≤ 1024 →
    ∃ t, xofCommands v cs n s = .next t ∧
      ∀ k : Fin 1024, k.val < n → t.iob[k] = shakeByte (if v = 128 then 168 else 136) cs.flatten k.val

/-! ### Ring arithmetic (43_ring.md) -/

/-- R141: PADD's word, and its effect on every state and registers: each coefficient the canonical representative of the
exact sum; everything but P[D], ERR and BUSY stays. -/
def Obligations.PaddRule : Prop :=
  ∀ (s : State) (d a b : PReg),
    decode (0x10 ||| BitVec.ofNat 32 d.val <<< 8 ||| BitVec.ofNat 32 a.val <<< 11 ||| BitVec.ofNat 32 b.val <<< 14)
      = .instr (.padd d a b) ∧
    ∃ t, exec (.padd d a b) s = .next t ∧
      (∀ k : Fin 256, t.polys[d][k].toInt = (s.polys[a][k].toInt + s.polys[b][k].toInt) % 8380417) ∧
      Canonical t.polys[d] ∧ (∀ p : PReg, p ≠ d → t.polys[p] = s.polys[p]) ∧
      t.err = .ok ∧ t.busy = false ∧ t.iob = s.iob ∧ sameSponge s t ∧ sameControl s t ∧
      sameWindowOutside s t (0x2000 + 0x400 * d.val) (0x2400 + 0x400 * d.val)

/-- R142: PMUL's word, and its effect on every state and registers: each coefficient the canonical representative of what
the two nested loops over the integers give; everything but P[D], ERR and BUSY stays. -/
def Obligations.PmulRule : Prop :=
  ∀ (s : State) (d a b : PReg),
    decode (0x11 ||| BitVec.ofNat 32 d.val <<< 8 ||| BitVec.ofNat 32 a.val <<< 11 ||| BitVec.ofNat 32 b.val <<< 14)
      = .instr (.pmul d a b) ∧
    ∃ t, exec (.pmul d a b) s = .next t ∧
      (∀ k : Fin 256, t.polys[d][k].toInt =
        pmulLoop (fun i => s.polys[a][i].toInt) (fun j => s.polys[b][j].toInt) k % 8380417) ∧
      Canonical t.polys[d] ∧ (∀ p : PReg, p ≠ d → t.polys[p] = s.polys[p]) ∧
      t.err = .ok ∧ t.busy = false ∧ t.iob = s.iob ∧ sameSponge s t ∧ sameControl s t ∧
      sameWindowOutside s t (0x2000 + 0x400 * d.val) (0x2400 + 0x400 * d.val)

/-- R143: PRED's word, and its effect on every state and registers: each coefficient's canonical representative;
everything but P[D], ERR and BUSY stays. -/
def Obligations.PredRule : Prop :=
  ∀ (s : State) (d a : PReg),
    decode (0x12 ||| BitVec.ofNat 32 d.val <<< 8 ||| BitVec.ofNat 32 a.val <<< 11) = .instr (.pred d a) ∧
    ∃ t, exec (.pred d a) s = .next t ∧
      (∀ k : Fin 256, t.polys[d][k].toInt = s.polys[a][k].toInt % 8380417) ∧
      Canonical t.polys[d] ∧ (∀ p : PReg, p ≠ d → t.polys[p] = s.polys[p]) ∧
      t.err = .ok ∧ t.busy = false ∧ t.iob = s.iob ∧ sameSponge s t ∧ sameControl s t ∧
      sameWindowOutside s t (0x2000 + 0x400 * d.val) (0x2400 + 0x400 * d.val)

/-- R144: P2R's word, and its effect on every state and registers with D ≠ E: t0 the low 13 bits, t1 the floor of
t / 2^13, t1 * 2^13 + t0 = t exactly, and for canonical t, t1 at most 1023; everything but P[D], P[E], ERR and BUSY
stays. With D = E the word is ILLEGAL. -/
def Obligations.P2rRule : Prop :=
  ∀ (s : State) (d e a : PReg),
    let w := 0x13 ||| BitVec.ofNat 32 d.val <<< 8 ||| BitVec.ofNat 32 a.val <<< 11 ||| BitVec.ofNat 32 e.val <<< 17
    (d = e → decode w = .reject .p2rSameDestination ∧
      exec (.p2r d e a) s = .next { s with err := .illegal, busy := false }) ∧
    (d ≠ e → decode w = .instr (.p2r d e a) ∧
      ∃ t, exec (.p2r d e a) s = .next t ∧
        (∀ k : Fin 256,
          0 ≤ t.polys[e][k].toInt ∧ t.polys[e][k].toInt ≤ 8191 ∧
          t.polys[d][k].toInt * 8192 + t.polys[e][k].toInt = s.polys[a][k].toInt ∧
          t.polys[e][k] = s.polys[a][k] &&& 0x1FFF ∧
          (0 ≤ s.polys[a][k].toInt → s.polys[a][k].toInt < 8380417 →
            0 ≤ t.polys[d][k].toInt ∧ t.polys[d][k].toInt ≤ 1023)) ∧
        (∀ p : PReg, p ≠ d → p ≠ e → t.polys[p] = s.polys[p]) ∧
        t.err = .ok ∧ t.busy = false ∧ t.iob = s.iob ∧ sameSponge s t ∧ sameControl s t ∧
        ∀ x, ¬(0x2000 + 0x400 * d.val ≤ x ∧ x < 0x2400 + 0x400 * d.val) →
          ¬(0x2000 + 0x400 * e.val ≤ x ∧ x < 0x2400 + 0x400 * e.val) → ¬(0x000C ≤ x ∧ x < 0x0010) →
          t.windowByte x = s.windowByte x)

/-- R145: a ring command's results do not depend on which registers it writes: naming a source as a destination gives what
a different register would get; and naming one register as both sources gives what two registers of the same contents
would. -/
def Obligations.AliasingIsHarmless : Prop :=
  ∀ (s : State) (d e d' e' a b : PReg), d ≠ e → d' ≠ e' →
    ∃ t1 u1 t2 u2 t3 u3 t4 u4,
      (exec (.padd d a b) s = .next t1 ∧ exec (.padd d' a b) s = .next u1 ∧ t1.polys[d] = u1.polys[d']) ∧
      (exec (.pmul d a b) s = .next t2 ∧ exec (.pmul d' a b) s = .next u2 ∧ t2.polys[d] = u2.polys[d']) ∧
      (exec (.pred d a) s = .next t3 ∧ exec (.pred d' a) s = .next u3 ∧ t3.polys[d] = u3.polys[d']) ∧
      (exec (.p2r d e a) s = .next t4 ∧ exec (.p2r d' e' a) s = .next u4 ∧
        t4.polys[d] = u4.polys[d'] ∧ t4.polys[e] = u4.polys[e']) ∧
      (s.polys[b] = s.polys[a] →
        exec (.padd d a a) s = exec (.padd d a b) s ∧ exec (.pmul d a a) s = exec (.pmul d a b) s)

/-- PADD and PMUL are commutative in A and B, and their results depend only on the operands' residues mod Q (R146 b). -/
def Obligations.RingCommandsCommute : Prop :=
  ∀ (s s' : State) (d a b : PReg),
    exec (.padd d a b) s = exec (.padd d b a) s ∧ exec (.pmul d a b) s = exec (.pmul d b a) s ∧
    ((∀ k : Fin 256, s.polys[a][k].toInt % 8380417 = s'.polys[a][k].toInt % 8380417) →
      (∀ k : Fin 256, s.polys[b][k].toInt % 8380417 = s'.polys[b][k].toInt % 8380417) →
      ∃ t t' u u', exec (.padd d a b) s = .next t ∧ exec (.padd d a b) s' = .next t' ∧ t.polys[d] = t'.polys[d] ∧
        exec (.pmul d a b) s = .next u ∧ exec (.pmul d a b) s' = .next u' ∧ u.polys[d] = u'.polys[d])

/-- PMUL by one gives the other operand reduced, and PMUL by X rotates the coefficients up by one and negates the one
that wraps (R146 a, c). -/
def Obligations.PmulByOneAndByX : Prop :=
  ∀ (s : State) (d a b : PReg),
    ((∀ k : Fin 256, s.polys[b][k].toInt = if k = 0 then 1 else 0) →
      ∃ t, exec (.pmul d a b) s = .next t ∧
        ∀ k : Fin 256, t.polys[d][k].toInt = s.polys[a][k].toInt % 8380417) ∧
    ((∀ k : Fin 256, s.polys[b][k].toInt = if k = 1 then 1 else 0) →
      ∃ t, exec (.pmul d a b) s = .next t ∧ t.polys[d][(0 : Fin 256)].toInt = (-s.polys[a][(255 : Fin 256)].toInt) % 8380417 ∧
        ∀ k : Fin 256, k ≠ 0 → t.polys[d][k].toInt = s.polys[a][k - 1].toInt % 8380417)

/-- PMUL multiplies in Z_Q[X]/(X^256 + 1) (R1, R142): the product of the two source polynomials and the destination
differ by a multiple of X^256 + 1 over the integers mod Q, and the destination is canonical. -/
def Obligations.PmulIsQuotientRingProduct : Prop :=
  ∀ (s : State) (d a b : PReg), ∃ t, exec (.pmul d a b) s = .next t ∧ Canonical t.polys[d] ∧
    ∀ pa pb pc : Polynomial (ZMod 8380417),
      pa = ∑ k : Fin 256, Polynomial.C ((s.polys[a][k].toInt : Int) : ZMod 8380417) * Polynomial.X ^ k.val →
      pb = ∑ k : Fin 256, Polynomial.C ((s.polys[b][k].toInt : Int) : ZMod 8380417) * Polynomial.X ^ k.val →
      pc = ∑ k : Fin 256, Polynomial.C ((t.polys[d][k].toInt : Int) : ZMod 8380417) * Polynomial.X ^ k.val →
      (Polynomial.X ^ 256 + 1) ∣ (pa * pb - pc)

/-- Which commands write which registers (R22, R25, R39): only SINIT changes RATE, only a ring command changes a
polynomial register, and only its destinations. -/
def Obligations.WritersOfRateAndPolynomials : Prop :=
  ∀ (i : Instr) (s t : State), exec i s = .next t →
    (i ≠ .sinit → t.rate = s.rate) ∧ (∀ p : PReg, p ∉ i.destinations → t.polys[p] = s.polys[p])

/-! ### Errors (60_exceptions.md) -/

/-- R166, with the causes of R162 to R164: every command word completes, with exactly one code, the first that applies;
a legal command that meets its own conditions completes with OK. The core's turn comes with the agenda empty or at its
head (log entries 1 and 2). -/
def Obligations.ErrorPriority : Prop :=
  ∀ s : State, (s.agenda = [] ∨ ∃ rest, s.agenda = .core :: rest) → s.busy = true → s.resetPin = false →
    ∃ t, step s = .next t ∧ t.busy = false ∧ t.err = errorOf s.pendCmd s.phase s.pendArg.toNat

/-- R165: a command that raises an error changes no state except ERR and BUSY, with the agenda empty, or with the core's
turn at its head, which is removed (log entries 1 and 2). -/
def Obligations.ErrorsChangeErrAndBusyOnly : Prop :=
  ∀ s t : State, s.busy = true → s.resetPin = false → step s = .next t → t.err ≠ .ok →
    (s.agenda = [] → t = { s with err := t.err, busy := false }) ∧
    (∀ rest, s.agenda = .core :: rest → t = { s with agenda := rest, err := t.err, busy := false })

/-- ERR, RATE, CURSOR, PHASE and the pending command are never changed by a host access to the window, but for the
pending command by an accepted CMD write (R33, R38); and the access answers a next state. -/
def Obligations.HostAccessLeavesSpongeControl : Prop :=
  ∀ (s : State) (a : Access) (rest : List Event), a.Ok → s.agenda = .host a :: rest →
    ∃ t, step s = .next t ∧ t.err = s.err ∧ t.rate = s.rate ∧ t.cursor = s.cursor ∧ t.phase = s.phase ∧
      t.agenda = rest ∧ (s.busy = true → t.pendCmd = s.pendCmd ∧ t.pendArg = s.pendArg ∧ t.busy = true)

/-! ### Invariants, reset, and whole runs (10_state.md R37, R38; 70_reset_and_hazards.md) -/

/-- The invariants of R38, and that no command is in flight under reset, are kept by every step from every state that
meets them: a command, an illegal word, any host access, an edge of reset. -/
def Obligations.StepKeepsInvariant : Prop :=
  ∀ s t : State, s.Inv → step s = .next t → t.Inv

/-- The invariants hold right after reset (R38). -/
def Obligations.ResetHasInvariant : Prop := State.reset.Inv

/-- R37: the value of every piece of state after reset, at power-on and after an edge of the reset input, where the
table gives one; the STATUS word is 0 and ID its constant. -/
def Obligations.ResetValues : Prop :=
  ∀ s t : State, (t = State.reset ∨ ∃ rest, s.agenda = .assertReset :: rest ∧ step s = .next t) →
    (∀ i : Fin 25, t.lanes[i] = 0) ∧ t.rate = 0 ∧ t.cursor = 0 ∧ t.phase = .idle ∧ t.busy = false ∧ t.ovr = false ∧
    t.err = .ok ∧ t.arg = 0 ∧ t.statusWord = 0 ∧ t.peek 0x0000 = 0x4B535231

/-- A command in flight is abandoned by reset, nothing happens while reset is asserted, and KSR1 is ready once it is
released (R180, R181): whatever core turns and supported accesses come in between, the machine ends idle with
every value of R37. -/
def Obligations.ResetAbandonsCommand : Prop :=
  ∀ (s : State) (es : List Event), (∀ e ∈ es, e.Ok ∧ e ≠ .releaseReset) →
    s.agenda = .assertReset :: es ++ [.releaseReset] →
    ∃ t, runSteps (es.length + 2) s = .next t ∧ t.agenda = [] ∧ t.resetPin = false ∧ t.busy = false ∧ t.ovr = false ∧
      (∀ i : Fin 25, t.lanes[i] = 0) ∧ t.rate = 0 ∧ t.cursor = 0 ∧ t.phase = .idle ∧ t.err = .ok ∧ t.arg = 0

/-- The BUSY window does not disturb the command in flight (R65, R77, R167, R190): after any host accesses to the window,
the core's turn leaves what it would have left at once, but for OVR, the answers of reads and the free draws. -/
def Obligations.BusyWindowDoesNotDisturb : Prop :=
  ∀ (s : State) (as : List Access), s.busy = true → s.resetPin = false → (∀ a ∈ as, a.Ok) →
    s.agenda = as.map .host ++ [.core] →
    ∃ t u, runSteps (as.length + 1) s = .next t ∧ runSteps 1 { s with agenda := [.core] } = .next u ∧
      t.lanes = u.lanes ∧ t.rate = u.rate ∧ t.cursor = u.cursor ∧ t.phase = u.phase ∧ t.polys = u.polys ∧
      t.iob = u.iob ∧ t.arg = u.arg ∧ t.err = u.err ∧ t.busy = false ∧ u.busy = false ∧
      t.pendCmd = u.pendCmd ∧ t.pendArg = u.pendArg

/-- Every accepted command completes after a finite number of host steps (R41): from any state that meets the invariants,
whatever supported events the agenda holds, one step more than its length ends with BUSY = 0 and nothing left to
do. The bound is the model's (log entry 2). -/
def Obligations.EveryCommandCompletes : Prop :=
  ∀ s : State, s.Inv → (∀ e ∈ s.agenda, e.Ok) →
    ∃ t, runSteps (s.agenda.length + 1) s = .next t ∧ t.busy = false ∧ t.agenda = []
end

