-- ==== Sys2Proof/Laws/State.lean ====
section
/-! SUPPORT. One lemma per field per named update of the state, each true by definition, so that no proof unfolds a record
update. -/

namespace Sys2Proof.Machine

variable (s : State)

@[simp] theorem setPolyWord_eq (p : PReg) (k : Fin 256) (w : Word) :
    s.setPolyWord p k w = s.setPoly p (s.polys[p].set k.val w) := rfl

@[simp] theorem raiseError_eq (c : ErrCode) : s.raiseError c = s.complete c := rfl

@[simp] theorem setPoly_lanes (p : PReg) (v : Poly) : (s.setPoly p v).lanes = s.lanes := rfl
@[simp] theorem setPoly_rate (p : PReg) (v : Poly) : (s.setPoly p v).rate = s.rate := rfl
@[simp] theorem setPoly_cursor (p : PReg) (v : Poly) : (s.setPoly p v).cursor = s.cursor := rfl
@[simp] theorem setPoly_phase (p : PReg) (v : Poly) : (s.setPoly p v).phase = s.phase := rfl
@[simp] theorem setPoly_polys (p : PReg) (v : Poly) : (s.setPoly p v).polys = s.polys.set p.val v := rfl
@[simp] theorem setPoly_iob (p : PReg) (v : Poly) : (s.setPoly p v).iob = s.iob := rfl
@[simp] theorem setPoly_arg (p : PReg) (v : Poly) : (s.setPoly p v).arg = s.arg := rfl
@[simp] theorem setPoly_busy (p : PReg) (v : Poly) : (s.setPoly p v).busy = s.busy := rfl
@[simp] theorem setPoly_ovr (p : PReg) (v : Poly) : (s.setPoly p v).ovr = s.ovr := rfl
@[simp] theorem setPoly_err (p : PReg) (v : Poly) : (s.setPoly p v).err = s.err := rfl
@[simp] theorem setPoly_pendCmd (p : PReg) (v : Poly) : (s.setPoly p v).pendCmd = s.pendCmd := rfl
@[simp] theorem setPoly_pendArg (p : PReg) (v : Poly) : (s.setPoly p v).pendArg = s.pendArg := rfl
@[simp] theorem setPoly_round (p : PReg) (v : Poly) : (s.setPoly p v).round = s.round := rfl
@[simp] theorem setPoly_stepIndex (p : PReg) (v : Poly) : (s.setPoly p v).stepIndex = s.stepIndex := rfl
@[simp] theorem setPoly_resetPin (p : PReg) (v : Poly) : (s.setPoly p v).resetPin = s.resetPin := rfl
@[simp] theorem setPoly_agenda (p : PReg) (v : Poly) : (s.setPoly p v).agenda = s.agenda := rfl
@[simp] theorem setPoly_readData (p : PReg) (v : Poly) : (s.setPoly p v).readData = s.readData := rfl
@[simp] theorem setPoly_draws (p : PReg) (v : Poly) : (s.setPoly p v).draws = s.draws := rfl

@[simp] theorem complete_lanes (c : ErrCode) : (s.complete c).lanes = s.lanes := rfl
@[simp] theorem complete_rate (c : ErrCode) : (s.complete c).rate = s.rate := rfl
@[simp] theorem complete_cursor (c : ErrCode) : (s.complete c).cursor = s.cursor := rfl
@[simp] theorem complete_phase (c : ErrCode) : (s.complete c).phase = s.phase := rfl
@[simp] theorem complete_polys (c : ErrCode) : (s.complete c).polys = s.polys := rfl
@[simp] theorem complete_iob (c : ErrCode) : (s.complete c).iob = s.iob := rfl
@[simp] theorem complete_arg (c : ErrCode) : (s.complete c).arg = s.arg := rfl
@[simp] theorem complete_busy (c : ErrCode) : (s.complete c).busy = false := rfl
@[simp] theorem complete_ovr (c : ErrCode) : (s.complete c).ovr = s.ovr := rfl
@[simp] theorem complete_err (c : ErrCode) : (s.complete c).err = c := rfl
@[simp] theorem complete_pendCmd (c : ErrCode) : (s.complete c).pendCmd = s.pendCmd := rfl
@[simp] theorem complete_pendArg (c : ErrCode) : (s.complete c).pendArg = s.pendArg := rfl
@[simp] theorem complete_round (c : ErrCode) : (s.complete c).round = s.round := rfl
@[simp] theorem complete_stepIndex (c : ErrCode) : (s.complete c).stepIndex = s.stepIndex := rfl
@[simp] theorem complete_resetPin (c : ErrCode) : (s.complete c).resetPin = s.resetPin := rfl
@[simp] theorem complete_agenda (c : ErrCode) : (s.complete c).agenda = s.agenda := rfl
@[simp] theorem complete_readData (c : ErrCode) : (s.complete c).readData = s.readData := rfl
@[simp] theorem complete_draws (c : ErrCode) : (s.complete c).draws = s.draws := rfl

@[simp] theorem acceptCommand_lanes (w : Word) : (s.acceptCommand w).lanes = s.lanes := rfl
@[simp] theorem acceptCommand_rate (w : Word) : (s.acceptCommand w).rate = s.rate := rfl
@[simp] theorem acceptCommand_cursor (w : Word) : (s.acceptCommand w).cursor = s.cursor := rfl
@[simp] theorem acceptCommand_phase (w : Word) : (s.acceptCommand w).phase = s.phase := rfl
@[simp] theorem acceptCommand_polys (w : Word) : (s.acceptCommand w).polys = s.polys := rfl
@[simp] theorem acceptCommand_iob (w : Word) : (s.acceptCommand w).iob = s.iob := rfl
@[simp] theorem acceptCommand_arg (w : Word) : (s.acceptCommand w).arg = s.arg := rfl
@[simp] theorem acceptCommand_busy (w : Word) : (s.acceptCommand w).busy = true := rfl
@[simp] theorem acceptCommand_ovr (w : Word) : (s.acceptCommand w).ovr = false := rfl
@[simp] theorem acceptCommand_err (w : Word) : (s.acceptCommand w).err = s.err := rfl
@[simp] theorem acceptCommand_pendCmd (w : Word) : (s.acceptCommand w).pendCmd = w := rfl
@[simp] theorem acceptCommand_pendArg (w : Word) : (s.acceptCommand w).pendArg = s.arg := rfl
@[simp] theorem acceptCommand_round (w : Word) : (s.acceptCommand w).round = s.round := rfl
@[simp] theorem acceptCommand_stepIndex (w : Word) : (s.acceptCommand w).stepIndex = s.stepIndex := rfl
@[simp] theorem acceptCommand_resetPin (w : Word) : (s.acceptCommand w).resetPin = s.resetPin := rfl
@[simp] theorem acceptCommand_agenda (w : Word) : (s.acceptCommand w).agenda = s.agenda := rfl
@[simp] theorem acceptCommand_readData (w : Word) : (s.acceptCommand w).readData = s.readData := rfl
@[simp] theorem acceptCommand_draws (w : Word) : (s.acceptCommand w).draws = s.draws := rfl

@[simp] theorem permute_lanes : (s.permute).lanes = keccakF s.lanes := rfl
@[simp] theorem permute_rate : (s.permute).rate = s.rate := rfl
@[simp] theorem permute_cursor : (s.permute).cursor = s.cursor := rfl
@[simp] theorem permute_phase : (s.permute).phase = s.phase := rfl
@[simp] theorem permute_polys : (s.permute).polys = s.polys := rfl
@[simp] theorem permute_iob : (s.permute).iob = s.iob := rfl
@[simp] theorem permute_arg : (s.permute).arg = s.arg := rfl
@[simp] theorem permute_busy : (s.permute).busy = s.busy := rfl
@[simp] theorem permute_ovr : (s.permute).ovr = s.ovr := rfl
@[simp] theorem permute_err : (s.permute).err = s.err := rfl
@[simp] theorem permute_pendCmd : (s.permute).pendCmd = s.pendCmd := rfl
@[simp] theorem permute_pendArg : (s.permute).pendArg = s.pendArg := rfl
@[simp] theorem permute_round : (s.permute).round = Config.freeRound s.draws := rfl
@[simp] theorem permute_stepIndex : (s.permute).stepIndex = KeccakStep.ofIndex (Config.freeStepIndex s.draws) := rfl
@[simp] theorem permute_resetPin : (s.permute).resetPin = s.resetPin := rfl
@[simp] theorem permute_agenda : (s.permute).agenda = s.agenda := rfl
@[simp] theorem permute_readData : (s.permute).readData = s.readData := rfl
@[simp] theorem permute_draws : (s.permute).draws = s.draws + 1 := rfl

@[simp] theorem assertReset_lanes : (s.assertReset).lanes = Vector.replicate 25 0 := rfl
@[simp] theorem assertReset_rate : (s.assertReset).rate = 0 := rfl
@[simp] theorem assertReset_cursor : (s.assertReset).cursor = 0 := rfl
@[simp] theorem assertReset_phase : (s.assertReset).phase = .idle := rfl
@[simp] theorem assertReset_polys : (s.assertReset).polys = (State.resetAt s.draws).polys := rfl
@[simp] theorem assertReset_iob : (s.assertReset).iob = (State.resetAt s.draws).iob := rfl
@[simp] theorem assertReset_arg : (s.assertReset).arg = 0 := rfl
@[simp] theorem assertReset_busy : (s.assertReset).busy = false := rfl
@[simp] theorem assertReset_ovr : (s.assertReset).ovr = false := rfl
@[simp] theorem assertReset_err : (s.assertReset).err = .ok := rfl
@[simp] theorem assertReset_pendCmd : (s.assertReset).pendCmd = Config.freePendCmd s.draws := rfl
@[simp] theorem assertReset_pendArg : (s.assertReset).pendArg = Config.freePendArg s.draws := rfl
@[simp] theorem assertReset_round : (s.assertReset).round = Config.freeRound s.draws := rfl
@[simp] theorem assertReset_stepIndex : (s.assertReset).stepIndex = KeccakStep.ofIndex (Config.freeStepIndex s.draws) := rfl
@[simp] theorem assertReset_resetPin : (s.assertReset).resetPin = true := rfl
@[simp] theorem assertReset_agenda : (s.assertReset).agenda = s.agenda := rfl
@[simp] theorem assertReset_readData : (s.assertReset).readData = s.readData := rfl
@[simp] theorem assertReset_draws : (s.assertReset).draws = s.draws + 1 := rfl

@[simp] theorem releaseReset_lanes : (s.releaseReset).lanes = s.lanes := rfl
@[simp] theorem releaseReset_rate : (s.releaseReset).rate = s.rate := rfl
@[simp] theorem releaseReset_cursor : (s.releaseReset).cursor = s.cursor := rfl
@[simp] theorem releaseReset_phase : (s.releaseReset).phase = s.phase := rfl
@[simp] theorem releaseReset_polys : (s.releaseReset).polys = s.polys := rfl
@[simp] theorem releaseReset_iob : (s.releaseReset).iob = s.iob := rfl
@[simp] theorem releaseReset_arg : (s.releaseReset).arg = s.arg := rfl
@[simp] theorem releaseReset_busy : (s.releaseReset).busy = s.busy := rfl
@[simp] theorem releaseReset_ovr : (s.releaseReset).ovr = s.ovr := rfl
@[simp] theorem releaseReset_err : (s.releaseReset).err = s.err := rfl
@[simp] theorem releaseReset_pendCmd : (s.releaseReset).pendCmd = s.pendCmd := rfl
@[simp] theorem releaseReset_pendArg : (s.releaseReset).pendArg = s.pendArg := rfl
@[simp] theorem releaseReset_round : (s.releaseReset).round = s.round := rfl
@[simp] theorem releaseReset_stepIndex : (s.releaseReset).stepIndex = s.stepIndex := rfl
@[simp] theorem releaseReset_resetPin : (s.releaseReset).resetPin = false := rfl
@[simp] theorem releaseReset_agenda : (s.releaseReset).agenda = s.agenda := rfl
@[simp] theorem releaseReset_readData : (s.releaseReset).readData = s.readData := rfl
@[simp] theorem releaseReset_draws : (s.releaseReset).draws = s.draws := rfl

/-- An error code and BUSY are all that ending a command writes. -/
theorem complete_eq (c : ErrCode) : s.complete c = { s with err := c, busy := false } := rfl

end Sys2Proof.Machine
end

