-- ==== Sys2Proof/Laws/Bytes.lean ====
section
/-! SUPPORT. The byte and word views of the lanes (R21, R52): what a write to one view does to a read of another. -/

namespace Sys2Proof.Machine

/-- Bit i of `insertBits`: the inserted bit inside the field, the old bit outside it. -/
theorem insertBits_getLsbD {n k : Nat} (v : BitVec n) (lo : Nat) (x : BitVec k) (i : Nat) (hi : i < n) :
    (insertBits v lo x).getLsbD i = if lo ≤ i ∧ i < lo + k then x.getLsbD (i - lo) else v.getLsbD i := by
  unfold insertBits
  by_cases h1 : lo ≤ i
  · by_cases h2 : i < lo + k
    · have : i - lo < k := by omega
      have : ¬ i < lo := by omega
      have : i - lo < n := by omega
      simp [*]
    · have : ¬ i - lo < k := by omega
      have : ¬ i < lo := by omega
      have hx : x.getLsbD (i - lo) = false := BitVec.getLsbD_of_ge _ _ (by omega)
      simp [*]
  · have : i < lo := by omega
    simp [*]

/-- Bit j of state byte i is bit 8(i mod 8) + j of lane i/8 (R21). -/
theorem stateByte_getLsbD (A : Lanes) (i j : Nat) (hj : j < 8) :
    (stateByte A i).getLsbD j = (A.getD (i / 8) 0).getLsbD (8 * (i % 8) + j) := by
  simp [stateByte, hj]

theorem getD_setIfInBounds {α : Type} {n : Nat} (v : Vector α n) (i j : Nat) (x d : α) :
    (v.setIfInBounds i x).getD j d = if i = j ∧ j < n then x else v.getD j d := by
  by_cases hj : j < n
  · simp [Vector.getD, hj, Array.getElem_setIfInBounds]
  · simp [Vector.getD, hj]

theorem getD_of_lt {α : Type} {n : Nat} (v : Vector α n) (i : Nat) (d : α) (h : i < n) : v.getD i d = v[i] := by
  simp [Vector.getD, h]

/-- A write to a state byte is read back there and nowhere else (R21). -/
theorem stateByte_setStateByte (A : Lanes) (i j : Nat) (b : Byte) (hi : i < 200) :
    stateByte (setStateByte A i b) j = if j = i then b else stateByte A j := by
  apply BitVec.eq_of_getLsbD_eq
  intro t ht
  rw [stateByte_getLsbD _ _ _ ht, setStateByte, getD_setIfInBounds]
  by_cases hl : i / 8 = j / 8 ∧ j / 8 < 25
  · rw [if_pos hl, insertBits_getLsbD _ _ _ _ (by omega)]
    by_cases hij : j = i
    · subst hij
      rw [if_pos (by omega), if_pos rfl]
      congr 1; omega
    · rw [if_neg (by omega), if_neg hij, stateByte_getLsbD _ _ _ ht, hl.1]
  · rw [if_neg hl, if_neg (by omega), stateByte_getLsbD _ _ _ ht]

theorem stateByte_xorStateByte (A : Lanes) (i j : Nat) (b : Byte) (hi : i < 200) :
    stateByte (xorStateByte A i b) j = if j = i then stateByte A j ^^^ b else stateByte A j := by
  rw [xorStateByte, stateByte_setStateByte _ _ _ _ hi]
  by_cases h : j = i <;> simp [h]

/-- Two states of the permutation are equal when their 200 bytes are. -/
theorem lanes_ext_bytes {A B : Lanes} (h : ∀ i < 200, stateByte A i = stateByte B i) : A = B := by
  apply Vector.ext
  intro l hl
  apply BitVec.eq_of_getLsbD_eq
  intro t ht
  have hb := congrArg (fun b => BitVec.getLsbD b (t % 8)) (h (8 * l + t / 8) (by omega))
  simp only [stateByte_getLsbD _ _ _ (show t % 8 < 8 by omega)] at hb
  rw [show (8 * l + t / 8) / 8 = l by omega, show 8 * ((8 * l + t / 8) % 8) + t % 8 = t by omega,
    getD_of_lt _ _ _ hl, getD_of_lt _ _ _ hl] at hb
  exact hb

/-- Byte j of a bus word, bit by bit. -/
theorem wordByte_getLsbD (w : Word) (j t : Nat) (ht : t < 8) : (wordByte w j).getLsbD t = w.getLsbD (8 * j + t) := by
  simp [wordByte, ht]

/-- Byte j of word w of the lane window is state byte 4w + j (R52). -/
theorem wordByte_laneWord (A : Lanes) (w j : Nat) (hj : j < 4) :
    wordByte (laneWord A w) j = stateByte A (4 * w + j) := by
  apply BitVec.eq_of_getLsbD_eq
  intro t ht
  rw [wordByte_getLsbD _ _ _ ht, stateByte_getLsbD _ _ _ ht, laneWord]
  have h1 : 8 * j + t < 32 := by omega
  have h2 : (4 * w + j) / 8 = w / 2 := by omega
  have h3 : 32 * (w % 2) + (8 * j + t) = 8 * ((4 * w + j) % 8) + t := by omega
  simp [h1, h2, h3]

/-- A bus word is its four bytes. -/
theorem word_ext_bytes {v w : Word} (h : ∀ j < 4, wordByte v j = wordByte w j) : v = w := by
  apply BitVec.eq_of_getLsbD_eq
  intro t ht
  have hb := congrArg (fun b => BitVec.getLsbD b (t % 8)) (h (t / 8) (by omega))
  simp only [wordByte_getLsbD _ _ _ (show t % 8 < 8 by omega)] at hb
  rwa [show 8 * (t / 8) + t % 8 = t by omega] at hb

/-- A write of word w of the lane window, read byte by byte (R52). -/
theorem stateByte_setLaneWord (A : Lanes) (w i : Nat) (x : Word) (hw : w < 50) :
    stateByte (setLaneWord A w x) i = if i / 4 = w then wordByte x (i % 4) else stateByte A i := by
  apply BitVec.eq_of_getLsbD_eq
  intro t ht
  rw [stateByte_getLsbD _ _ _ ht, setLaneWord, getD_setIfInBounds]
  by_cases hl : w / 2 = i / 8 ∧ i / 8 < 25
  · rw [if_pos hl, insertBits_getLsbD _ _ _ _ (by omega)]
    by_cases hij : i / 4 = w
    · rw [if_pos (by omega), if_pos hij, wordByte_getLsbD _ _ _ ht]
      congr 1; omega
    · rw [if_neg (by omega), if_neg hij, stateByte_getLsbD _ _ _ ht, hl.1]
  · rw [if_neg hl, if_neg (by omega), stateByte_getLsbD _ _ _ ht]

/-- Byte j of word w of the buffer window is buffer byte 4w + j (R53). -/
theorem wordByte_iobWord (iob : Vector Byte 1024) (w j : Nat) (hj : j < 4) :
    wordByte (iobWord iob w) j = iob.getD (4 * w + j) 0 := by
  apply BitVec.eq_of_getLsbD_eq
  intro t ht
  rw [wordByte_getLsbD _ _ _ ht, iobWord]
  obtain rfl | rfl | rfl | rfl : j = 0 ∨ j = 1 ∨ j = 2 ∨ j = 3 := by omega
  all_goals simp only [BitVec.getLsbD_append]
  · rw [if_pos (by omega)]; simp
  · rw [if_neg (by omega), if_pos (by omega)]; congr 1; omega
  · rw [if_neg (by omega), if_neg (by omega), if_pos (by omega)]; congr 1; omega
  · rw [if_neg (by omega), if_neg (by omega), if_neg (by omega)]; congr 1; omega

/-- A write of word w of the buffer window, read byte by byte (R53). -/
theorem getD_setIobWord (iob : Vector Byte 1024) (w k : Nat) (x : Word) (hk : k < 1024) :
    (setIobWord iob w x).getD k 0 = if k / 4 = w then wordByte x (k % 4) else iob.getD k 0 := by
  simp only [setIobWord, getD_setIfInBounds, hk, and_true]
  by_cases h : k / 4 = w
  · rw [if_pos h]
    obtain h4 | h4 | h4 | h4 : k % 4 = 0 ∨ k % 4 = 1 ∨ k % 4 = 2 ∨ k % 4 = 3 := by omega
    · rw [if_neg (by omega), if_neg (by omega), if_neg (by omega), if_pos (by omega), h4]
    · rw [if_neg (by omega), if_neg (by omega), if_pos (by omega), h4]
    · rw [if_neg (by omega), if_pos (by omega), h4]
    · rw [if_pos (by omega), h4]
  · rw [if_neg h, if_neg (by omega), if_neg (by omega), if_neg (by omega), if_neg (by omega)]

end Sys2Proof.Machine
end

