-- ==== Sys2Proof/Laws/Ring.lean ====
section
/-! SUPPORT. Coefficients: the signed reading, the canonical representative and the stored word (R9, R140), and what a write
of a polynomial register leaves. -/

namespace Sys2Proof.Machine

theorem reduce_nonneg (x : Int) : 0 ≤ reduce x := Int.emod_nonneg _ (by decide)

theorem reduce_lt (x : Int) : reduce x < Config.Q := Int.emod_lt_of_pos _ (by decide)

/-- `sv(word32(x)) = x` for x in [-2^31, 2^31) (R9). -/
theorem toInt_word32 (x : Int) (h1 : -2147483648 ≤ x) (h2 : x < 2147483648) : (word32 x).toInt = x := by
  rw [word32, BitVec.toInt_ofInt]
  exact Int.bmod_eq_of_le (by norm_num; omega) (by norm_num; omega)

theorem toInt_word32_reduce (x : Int) : (word32 (reduce x)).toInt = reduce x :=
  toInt_word32 _ (by have := reduce_nonneg x; omega) (by have := reduce_lt x; simp only [Config.Q] at this; omega)

/-- A signed word lies in [-2^31, 2^31). -/
theorem word_toInt_bounds (w : Word) : -2147483648 ≤ w.toInt ∧ w.toInt < 2147483648 := by
  have h1 := BitVec.le_toInt w
  have h2 := BitVec.toInt_lt (x := w)
  norm_num at h1 h2
  omega

@[simp] theorem coeffsOf_apply (v : Poly) (k : Fin 256) : coeffsOf v k = v[k].toInt := rfl

@[simp] theorem polyOf_getElem (c : Coeffs) (k : Fin 256) : (polyOf c)[k] = word32 (c k) := by
  simp [polyOf]

/-- The one register a write of a polynomial register changes (R25). -/
theorem setPoly_polys_getElem (s : State) (d p : PReg) (v : Poly) :
    (s.setPoly d v).polys[p] = if p = d then v else s.polys[p] := by
  simp only [setPoly_polys, Fin.getElem_fin, Vector.getElem_set, Fin.ext_iff]
  by_cases h : p.val = d.val
  · simp [h]
  · rw [if_neg (fun e => h e.symm), if_neg h]

/-- The same after the command's end. -/
theorem complete_setPoly_polys_getElem (s : State) (d p : PReg) (v : Poly) (c : ErrCode) :
    ((s.setPoly d v).complete c).polys[p] = if p = d then v else s.polys[p] := setPoly_polys_getElem s d p v

end Sys2Proof.Machine
end

