-- ==== Sys2Proof/Laws/Bus.lean ====
section
/-! SUPPORT. The address map (R51) as ranges of offsets, what a read of the window depends on, and what one host access can
do (R41, R56 to R66). -/

namespace Sys2Proof.Machine

/-- The offsets of each region of the map (R51). -/
def Region.offsets : Region → Nat → Prop
  | .id, a => a < 0x0004
  | .cmd, a => 0x0004 ≤ a ∧ a < 0x0008
  | .arg, a => 0x0008 ≤ a ∧ a < 0x000C
  | .status, a => 0x000C ≤ a ∧ a < 0x0010
  | .rate, a => 0x0010 ≤ a ∧ a < 0x0014
  | .lane w, a => w < 50 ∧ 0x0100 + 4 * w ≤ a ∧ a < 0x0104 + 4 * w
  | .iobuf w, a => w < 256 ∧ 0x0400 + 4 * w ≤ a ∧ a < 0x0404 + 4 * w
  | .poly p k, a => 0x2000 + 0x400 * p.val + 4 * k.val ≤ a ∧ a < 0x2004 + 0x400 * p.val + 4 * k.val
  | .reserved, a => (0x0014 ≤ a ∧ a < 0x0100) ∨ (0x01C8 ≤ a ∧ a < 0x0400) ∨ (0x0800 ≤ a ∧ a < 0x2000) ∨ 0x4000 ≤ a

theorem regionOf_offsets (a : Nat) : (regionOf a).offsets a := by
  unfold regionOf
  repeat' split
  all_goals simp only [Region.offsets, Fin.val_ofNat]
  all_goals omega

theorem regionOf_id : regionOf 0x0000 = .id := by decide
theorem regionOf_cmd : regionOf 0x0004 = .cmd := by decide
theorem regionOf_arg : regionOf 0x0008 = .arg := by decide
theorem regionOf_status : regionOf 0x000C = .status := by decide
theorem regionOf_rate : regionOf 0x0010 = .rate := by decide

/-- Every offset belongs to one region (R51). -/
theorem regionOf_eq {r : Region} {a : Nat} (h : r.offsets a) : regionOf a = r := by
  have h' := regionOf_offsets a
  cases r <;> cases hr : regionOf a <;> rw [hr] at h' <;> simp only [Region.offsets] at h h' <;>
    first
    | rfl
    | (exfalso; omega)
    | (congr 1 <;> omega)
    | (congr 1 <;> apply Fin.ext <;> omega)

/-- The lane words of the map (R52). -/
theorem regionOf_lane (w j : Nat) (hw : w < 50) (hj : j < 4) : regionOf (0x0100 + 4 * w + j) = .lane w :=
  regionOf_eq (by simp only [Region.offsets]; omega)

/-- The buffer words of the map (R53). -/
theorem regionOf_iobuf (w j : Nat) (hw : w < 256) (hj : j < 4) : regionOf (0x0400 + 4 * w + j) = .iobuf w :=
  regionOf_eq (by simp only [Region.offsets]; omega)

/-- The coefficient words of the map (R54). -/
theorem regionOf_poly (p : PReg) (k : Fin 256) (j : Nat) (hj : j < 4) :
    regionOf (0x2000 + 0x400 * p.val + 4 * k.val + j) = .poly p k :=
  regionOf_eq (by simp only [Region.offsets]; omega)

/-- The reserved offsets of the map (R57). -/
theorem regionOf_reserved (a : Nat)
    (h : (0x0014 ≤ a ∧ a < 0x0100) ∨ (0x01C8 ≤ a ∧ a < 0x0400) ∨ (0x0800 ≤ a ∧ a < 0x2000)) :
    regionOf a = .reserved :=
  regionOf_eq (by simp only [Region.offsets]; omega)

/-- Where neither state's word at `a` is written, both read the same byte. -/
theorem windowByte_congr {s t : State} {a : Nat} (h : t.peek a = s.peek a) : t.windowByte a = s.windowByte a := by
  simp [State.windowByte, h]

/-- A read of the window depends only on the registers of its region; here, on all but the lanes, the buffer and the
polynomial registers being equal, and on those where the offset falls into them. -/
theorem peek_congr {s t : State} {a : Nat} (harg : t.arg = s.arg) (hrate : t.rate = s.rate ∨ ¬(0x0010 ≤ a ∧ a < 0x0014))
    (hst : ¬(0x000C ≤ a ∧ a < 0x0010)) (hl : t.lanes = s.lanes ∨ ¬(0x0100 ≤ a ∧ a < 0x01C8))
    (hi : ∀ w, regionOf a = .iobuf w → iobWord t.iob w = iobWord s.iob w)
    (hp : ∀ p k, regionOf a = .poly p k → t.polys[p][k] = s.polys[p][k]) : t.peek a = s.peek a := by
  have hb := regionOf_offsets a
  cases h : regionOf a <;> rw [h] at hb <;> simp only [Region.offsets] at hb <;> simp only [State.peek, h]
  · exact harg
  · exact absurd hb hst
  · rw [hrate.resolve_right (by omega)]
  · rw [hl.resolve_right (by omega)]
  · exact hi _ h
  · exact hp _ _ h

/-- A supported access to the window answers a next state: the read's or the write's. -/
theorem hostStep_read (off : Nat) (s : State) (h1 : off % 4 = 0) (h2 : off < 0x4000) :
    hostStep (.read 4 off) s = .next { (s.mmioRead off).1 with readData := (s.mmioRead off).2 } := by
  have : ¬ 0x4000 ≤ off := by omega
  simp [hostStep, supported, h1, this]

theorem hostStep_write (off : Nat) (w : Word) (s : State) (h1 : off % 4 = 0) (h2 : off < 0x4000) :
    hostStep (.write 4 off w) s = .next (s.mmioWrite off w) := by
  have : ¬ 0x4000 ≤ off := by omega
  simp [hostStep, supported, h1, this]

theorem mmioRead_idle (s : State) (off : Nat) (h : s.busy = false) (hr : s.resetPin = false) :
    s.mmioRead off = (s, s.peek off) := by
  simp [State.mmioRead, h, hr]

theorem mmioRead_busy (s : State) (off : Nat) (h : s.busy = true) (hr : s.resetPin = false) :
    s.mmioRead off = ({ s with draws := s.draws + 1 }, s.busyPeek off (Config.freeWord s.draws)) := by
  simp [State.mmioRead, h, hr]

theorem mmioWrite_idle (s : State) (off : Nat) (w : Word) (h : s.busy = false) (hr : s.resetPin = false) :
    s.mmioWrite off w = s.poke off w := by
  simp [State.mmioWrite, h, hr]

theorem mmioWrite_busy (s : State) (off : Nat) (w : Word) (h : s.busy = true) (hr : s.resetPin = false) :
    s.mmioWrite off w = { s with ovr := true } := by
  simp [State.mmioWrite, h, hr]

/-- The four supported accesses, as one update of the state each (R52 to R59, R65, R66). -/
theorem hostStep_read_idle {s : State} {off : Nat} (h1 : off % 4 = 0) (h2 : off < 0x4000) (hb : s.busy = false)
    (hr : s.resetPin = false) : hostStep (.read 4 off) s = .next { s with readData := s.peek off } := by
  rw [hostStep_read off s h1 h2, mmioRead_idle s off hb hr]

theorem hostStep_read_busy {s : State} {off : Nat} (h1 : off % 4 = 0) (h2 : off < 0x4000) (hb : s.busy = true)
    (hr : s.resetPin = false) : hostStep (.read 4 off) s =
      .next { s with readData := s.busyPeek off (Config.freeWord s.draws), draws := s.draws + 1 } := by
  rw [hostStep_read off s h1 h2, mmioRead_busy s off hb hr]

theorem hostStep_write_idle {s : State} {off : Nat} {w : Word} (h1 : off % 4 = 0) (h2 : off < 0x4000)
    (hb : s.busy = false) (hr : s.resetPin = false) : hostStep (.write 4 off w) s = .next (s.poke off w) := by
  rw [hostStep_write off w s h1 h2, mmioWrite_idle s off w hb hr]

theorem hostStep_write_busy {s : State} {off : Nat} {w : Word} (h1 : off % 4 = 0) (h2 : off < 0x4000)
    (hb : s.busy = true) (hr : s.resetPin = false) : hostStep (.write 4 off w) s = .next { s with ovr := true } := by
  rw [hostStep_write off w s h1 h2, mmioWrite_busy s off w hb hr]

/-- Under reset a read draws a free word and a write has no effect (R180). -/
theorem hostStep_read_reset {s : State} {off : Nat} (h1 : off % 4 = 0) (h2 : off < 0x4000) (hr : s.resetPin = true) :
    hostStep (.read 4 off) s = .next { s with readData := Config.freeWord s.draws, draws := s.draws + 1 } := by
  rw [hostStep_read off s h1 h2]
  simp [State.mmioRead, hr]

theorem hostStep_write_reset {s : State} {off : Nat} {w : Word} (h1 : off % 4 = 0) (h2 : off < 0x4000)
    (hr : s.resetPin = true) : hostStep (.write 4 off w) s = .next s := by
  rw [hostStep_write off w s h1 h2]
  simp [State.mmioWrite, hr]

/-- An access that KSR1 gives a meaning answers a next state. -/
theorem hostStep_next (a : Access) (s : State) (h : a.Ok) : ∃ t, hostStep a s = .next t := by
  cases a with
  | read b off => obtain ⟨rfl, h1, h2⟩ := h; exact ⟨_, hostStep_read off s h1 h2⟩
  | write b off w => obtain ⟨rfl, h1, h2⟩ := h; exact ⟨_, hostStep_write off w s h1 h2⟩

/-- All a host write while BUSY = 0 can do (R31, R51). -/
theorem poke_cases (s : State) (off : Nat) (w : Word) :
    s.poke off w = s ∨ s.poke off w = s.acceptCommand w ∨ s.poke off w = { s with arg := w } ∨
    (∃ A, s.poke off w = { s with lanes := A }) ∨ (∃ b, s.poke off w = { s with iob := b }) ∨
    (∃ ps, s.poke off w = { s with polys := ps }) := by
  unfold State.poke
  cases regionOf off with
  | id => exact .inl rfl
  | cmd => exact .inr (.inl rfl)
  | arg => exact .inr (.inr (.inl rfl))
  | status => exact .inl rfl
  | rate => exact .inl rfl
  | lane i => exact .inr (.inr (.inr (.inl ⟨setLaneWord s.lanes i w, rfl⟩)))
  | iobuf i => exact .inr (.inr (.inr (.inr (.inl ⟨setIobWord s.iob i w, rfl⟩))))
  | poly p k => exact .inr (.inr (.inr (.inr (.inr ⟨(s.setPolyWord p k w).polys, rfl⟩))))
  | reserved => exact .inl rfl

/-- All a host access can do when it answers a next state. -/
theorem hostStep_cases {a : Access} {s t : State} (h : hostStep a s = .next t) :
    (∃ n v, t = { s with readData := v, draws := n }) ∨
    (s.busy = true ∧ t = { s with ovr := true }) ∨
    (s.busy = false ∧ s.resetPin = false ∧ ∃ off w, t = s.poke off w) ∨ t = s := by
  cases a with
  | read bytes off =>
    simp only [hostStep] at h
    split at h
    · cases h
    split at h
    · cases h
    cases h
    left
    unfold State.mmioRead
    split
    · exact ⟨_, _, rfl⟩
    split
    · exact ⟨_, _, rfl⟩
    · exact ⟨s.draws, _, rfl⟩
  | write bytes off w =>
    simp only [hostStep] at h
    split at h
    · cases h
    split at h
    · cases h
    cases h
    unfold State.mmioWrite
    split
    · exact .inr (.inr (.inr rfl))
    rename_i hr
    split
    · exact .inr (.inl ⟨by assumption, rfl⟩)
    · exact .inr (.inr (.inl ⟨by simpa using ‹¬ s.busy = true›, by simpa using hr, off, w, rfl⟩))

end Sys2Proof.Machine
end

