-- ==== Sys2Proof/Laws/Sponge.lean ====
section
/-! SUPPORT. The loops of ABSORB and SQUEEZE (R122, R124): what they write, what they depend on, and where the cursor goes. -/

namespace Sys2Proof.Machine

/-- All an advance of the cursor writes. -/
theorem advanceCursor_frame (s : State) : ∃ A c r i n,
    s.advanceCursor = { s with lanes := A, cursor := c, round := r, stepIndex := i, draws := n } := by
  unfold State.advanceCursor
  split
  · exact ⟨_, _, _, _, _, rfl⟩
  · exact ⟨s.lanes, _, s.round, s.stepIndex, s.draws, rfl⟩

/-- All a turn of ABSORB's loop writes. -/
theorem absorbByte_frame (s : State) (b : Byte) : ∃ A c r i n,
    s.absorbByte b = { s with lanes := A, cursor := c, round := r, stepIndex := i, draws := n } := by
  obtain ⟨A, c, r, i, n, h⟩ := advanceCursor_frame { s with lanes := xorStateByte s.lanes s.cursor.toNat b }
  exact ⟨A, c, r, i, n, h⟩

/-- All ABSORB's loop writes: the lanes, CURSOR and the permutation core's hidden counters (R122). -/
theorem absorbBytes_frame (bs : List Byte) (s : State) : ∃ A c r i n,
    s.absorbBytes bs = { s with lanes := A, cursor := c, round := r, stepIndex := i, draws := n } := by
  induction bs generalizing s with
  | nil => exact ⟨s.lanes, s.cursor, s.round, s.stepIndex, s.draws, rfl⟩
  | cons b bs ih =>
    obtain ⟨A, c, r, i, n, h⟩ := absorbByte_frame s b
    obtain ⟨A', c', r', i', n', h'⟩ := ih (s.absorbByte b)
    refine ⟨A', c', r', i', n', ?_⟩
    rw [show s.absorbBytes (b :: bs) = (s.absorbByte b).absorbBytes bs from rfl, h', h]

@[simp] theorem absorbBytes_nil (s : State) : s.absorbBytes [] = s := rfl

@[simp] theorem absorbBytes_cons (s : State) (b : Byte) (bs : List Byte) :
    s.absorbBytes (b :: bs) = (s.absorbByte b).absorbBytes bs := rfl

/-- The loop carries its whole state from one byte string to the next (R125). -/
theorem absorbBytes_append (s : State) (xs ys : List Byte) :
    s.absorbBytes (xs ++ ys) = (s.absorbBytes xs).absorbBytes ys := by
  simp [State.absorbBytes, List.foldl_append]

/-- The part of the state the two loops read besides the buffer. -/
def sameCore (s t : State) : Prop := s.lanes = t.lanes ∧ s.cursor = t.cursor ∧ s.rate = t.rate

theorem advanceCursor_congr {s t : State} (h : sameCore s t) : sameCore s.advanceCursor t.advanceCursor := by
  obtain ⟨h1, h2, h3⟩ := h
  unfold State.advanceCursor sameCore
  rw [h2, h3]
  split <;> simp [h1, h3]

theorem absorbByte_congr {s t : State} (h : sameCore s t) (b : Byte) : sameCore (s.absorbByte b) (t.absorbByte b) := by
  apply advanceCursor_congr
  obtain ⟨h1, h2, h3⟩ := h
  exact ⟨by rw [h1, h2], h2, h3⟩

/-- What ABSORB's loop leaves in the lanes and the cursor depends on them, the rate and the bytes alone. -/
theorem absorbBytes_congr (bs : List Byte) {s t : State} (h : sameCore s t) :
    sameCore (s.absorbBytes bs) (t.absorbBytes bs) := by
  induction bs generalizing s t with
  | nil => exact h
  | cons b bs ih => exact ih (absorbByte_congr h b)

/-- The cursor's advance as a number, at a rate above it (R23, R122). -/
theorem advanceCursor_cursor (s : State) (hc : s.cursor.toNat < s.rate.toNat) :
    s.advanceCursor.cursor.toNat = (s.cursor.toNat + 1) % s.rate.toNat := by
  have hr := s.rate.isLt
  have h1 : (s.cursor + 1).toNat = s.cursor.toNat + 1 := by
    rw [BitVec.toNat_add]; simp; omega
  unfold State.advanceCursor
  split
  · rename_i h
    have : s.cursor.toNat + 1 = s.rate.toNat := by rw [← h1, h]
    simp [this]
  · rename_i h
    have : s.cursor.toNat + 1 ≠ s.rate.toNat := fun e => h (BitVec.eq_of_toNat_eq (by rw [h1, e]))
    simp only [h1]
    rw [Nat.mod_eq_of_lt (by omega)]

/-- Where the cursor does not reach the rate, its advance is all that happens; where it does, the permutation runs. -/
theorem advanceCursor_lanes (s : State) (hc : s.cursor.toNat < s.rate.toNat) :
    s.advanceCursor.lanes = if s.cursor.toNat + 1 = s.rate.toNat then keccakF s.lanes else s.lanes := by
  have hr := s.rate.isLt
  have h1 : (s.cursor + 1).toNat = s.cursor.toNat + 1 := by
    rw [BitVec.toNat_add]; simp; omega
  unfold State.advanceCursor
  by_cases h : s.cursor + 1 = s.rate
  · have : s.cursor.toNat + 1 = s.rate.toNat := by rw [← h1, h]
    rw [if_pos h, if_pos this]; rfl
  · have : s.cursor.toNat + 1 ≠ s.rate.toNat := fun e => h (BitVec.eq_of_toNat_eq (by rw [h1, e]))
    rw [if_neg h, if_neg this]

theorem absorbByte_rate (s : State) (b : Byte) : (s.absorbByte b).rate = s.rate := by
  obtain ⟨_, _, _, _, _, h⟩ := absorbByte_frame s b
  rw [h]

theorem absorbBytes_rate (s : State) (bs : List Byte) : (s.absorbBytes bs).rate = s.rate := by
  obtain ⟨_, _, _, _, _, h⟩ := absorbBytes_frame bs s
  rw [h]

theorem absorbByte_cursor (s : State) (b : Byte) (hc : s.cursor.toNat < s.rate.toNat) :
    (s.absorbByte b).cursor.toNat = (s.cursor.toNat + 1) % s.rate.toNat :=
  advanceCursor_cursor { s with lanes := xorStateByte s.lanes s.cursor.toNat b } hc

theorem absorbByte_lanes (s : State) (b : Byte) (hc : s.cursor.toNat < s.rate.toNat) :
    (s.absorbByte b).lanes =
      if s.cursor.toNat + 1 = s.rate.toNat then keccakF (xorStateByte s.lanes s.cursor.toNat b)
      else xorStateByte s.lanes s.cursor.toNat b :=
  advanceCursor_lanes { s with lanes := xorStateByte s.lanes s.cursor.toNat b } hc

/-- The cursor stays below the rate (R23). -/
theorem absorbByte_cursor_lt (s : State) (b : Byte) (hc : s.cursor.toNat < s.rate.toNat) :
    (s.absorbByte b).cursor.toNat < (s.absorbByte b).rate.toNat := by
  rw [absorbByte_cursor s b hc, absorbByte_rate]
  exact Nat.mod_lt _ (by omega)

/-- Where ABSORB's loop leaves the cursor: n bytes round the rate window (R122). -/
theorem absorbBytes_cursor (bs : List Byte) (s : State) (h : s.cursor.toNat < s.rate.toNat) :
    (s.absorbBytes bs).cursor.toNat = (s.cursor.toNat + bs.length) % s.rate.toNat := by
  induction bs generalizing s with
  | nil => simp [Nat.mod_eq_of_lt h]
  | cons b bs ih =>
    rw [absorbBytes_cons, ih _ (absorbByte_cursor_lt s b h), absorbByte_cursor s b h, absorbByte_rate]
    simp only [List.length_cons, Nat.mod_add_mod]
    congr 1; omega

/-- All a turn of SQUEEZE's loop writes. -/
theorem squeezeByte_frame (s : State) (k : Nat) : ∃ A c r i n,
    s.squeezeByte k = { s with lanes := A, cursor := c, round := r, stepIndex := i, draws := n,
                               iob := s.iob.setIfInBounds k (stateByte s.lanes s.cursor.toNat) } := by
  obtain ⟨A, c, r, i, n, h⟩ :=
    advanceCursor_frame { s with iob := s.iob.setIfInBounds k (stateByte s.lanes s.cursor.toNat) }
  exact ⟨A, c, r, i, n, h⟩

theorem squeezeBytes_succ (s : State) (n : Nat) : s.squeezeBytes (n + 1) = (s.squeezeBytes n).squeezeByte n := by
  simp [State.squeezeBytes, List.range_succ, List.foldl_append]

@[simp] theorem squeezeBytes_zero (s : State) : s.squeezeBytes 0 = s := rfl

/-- All SQUEEZE's loop writes: the lanes, CURSOR, the hidden counters, and IOB[0] to IOB[n-1] (R124). -/
theorem squeezeBytes_frame (n : Nat) (s : State) : ∃ A c r i d b,
    s.squeezeBytes n = { s with lanes := A, cursor := c, round := r, stepIndex := i, draws := d, iob := b } ∧
    ∀ j, n ≤ j → b.getD j 0 = s.iob.getD j 0 := by
  induction n with
  | zero => exact ⟨s.lanes, s.cursor, s.round, s.stepIndex, s.draws, s.iob, rfl, fun _ _ => rfl⟩
  | succ n ih =>
    obtain ⟨A, c, r, i, d, b, h, hb⟩ := ih
    obtain ⟨A', c', r', i', d', h'⟩ := squeezeByte_frame (s.squeezeBytes n) n
    refine ⟨A', c', r', i', d', b.setIfInBounds n (stateByte A c.toNat), ?_, ?_⟩
    · rw [squeezeBytes_succ, h', h]
    · intro j hj
      simp only [getD_setIfInBounds]
      rw [if_neg (by omega)]
      exact hb j (by omega)

theorem squeezeBytes_rate (n : Nat) (s : State) : (s.squeezeBytes n).rate = s.rate := by
  obtain ⟨_, _, _, _, _, _, e, -⟩ := squeezeBytes_frame n s
  rw [e]

theorem squeezeByte_cursor (s : State) (k : Nat) (hc : s.cursor.toNat < s.rate.toNat) :
    (s.squeezeByte k).cursor.toNat = (s.cursor.toNat + 1) % s.rate.toNat :=
  advanceCursor_cursor { s with iob := s.iob.setIfInBounds k (stateByte s.lanes s.cursor.toNat) } hc

theorem squeezeByte_lanes (s : State) (k : Nat) (hc : s.cursor.toNat < s.rate.toNat) :
    (s.squeezeByte k).lanes = if s.cursor.toNat + 1 = s.rate.toNat then keccakF s.lanes else s.lanes :=
  advanceCursor_lanes { s with iob := s.iob.setIfInBounds k (stateByte s.lanes s.cursor.toNat) } hc

/-- Where SQUEEZE's loop leaves the cursor: n bytes round the rate window (R124). -/
theorem squeezeBytes_cursor (n : Nat) (s : State) (h : s.cursor.toNat < s.rate.toNat) :
    (s.squeezeBytes n).cursor.toNat = (s.cursor.toNat + n) % s.rate.toNat := by
  induction n with
  | zero => simp [Nat.mod_eq_of_lt h]
  | succ n ih =>
    have hr := squeezeBytes_rate n s
    rw [squeezeBytes_succ, squeezeByte_cursor _ _ (by rw [ih, hr]; exact Nat.mod_lt _ (by omega)), ih, hr]
    simp only [Nat.mod_add_mod]
    congr 1

theorem squeezeByte_congr {s t : State} (h : sameCore s t) (j k : Nat) :
    sameCore (s.squeezeByte j) (t.squeezeByte k) := by
  apply advanceCursor_congr
  obtain ⟨h1, h2, h3⟩ := h
  exact ⟨h1, h2, h3⟩

/-- What SQUEEZE's loop leaves in the lanes and the cursor depends on them and the rate alone. -/
theorem squeezeBytes_congr (n : Nat) {s t : State} (h : sameCore s t) :
    sameCore (s.squeezeBytes n) (t.squeezeBytes n) := by
  induction n with
  | zero => exact h
  | succ n ih => rw [squeezeBytes_succ, squeezeBytes_succ]; exact squeezeByte_congr ih n n

/-- Byte k that SQUEEZE's loop delivers is the state byte at the cursor after k turns (R124). -/
theorem squeezeBytes_iob (n k : Nat) (s : State) (hk : k < n) (h : k < 1024) :
    (s.squeezeBytes n).iob.getD k 0 = stateByte (s.squeezeBytes k).lanes (s.squeezeBytes k).cursor.toNat := by
  induction n with
  | zero => omega
  | succ n ih =>
    obtain ⟨_, _, _, _, _, h'⟩ := squeezeByte_frame (s.squeezeBytes n) n
    rw [squeezeBytes_succ, h']
    simp only [getD_setIfInBounds]
    by_cases hkn : n = k
    · subst hkn; simp [h]
    · rw [if_neg (by omega)]; exact ih (by omega)

end Sys2Proof.Machine
end

