-- ==== Sys2Proof/Laws/Exec.lean ====
section
/-! SUPPORT. Each meaning on the path where it does its work, each error it raises, and what no command writes. -/

namespace Sys2Proof.Machine

variable (s : State)

theorem exec_permute : exec .permute s = .next (s.permute.complete .ok) := rfl

theorem exec_sinit_ok {r : BitVec 8} (h : variantRate s.argument = some r) :
    exec .sinit s = .next (State.complete
      { s with lanes := Vector.replicate 25 0, rate := r, cursor := 0, phase := .absorbing } .ok) := by
  simp [exec, execSinit, h]

theorem exec_sinit_config (h : variantRate s.argument = none) : exec .sinit s = .next (s.complete .config) := by
  simp [exec, execSinit, h]

theorem exec_absorb_protocol (h : s.phase ≠ .absorbing) : exec .absorb s = .next (s.complete .protocol) := by
  simp [exec, execAbsorb, h]

theorem exec_absorb_range (h : s.phase = .absorbing) (hn : 1024 < s.argument) :
    exec .absorb s = .next (s.complete .range) := by
  simp [exec, execAbsorb, h, hn]

theorem exec_absorb_ok (h : s.phase = .absorbing) (hn : s.argument ≤ 1024) :
    exec .absorb s = .next ((s.absorbBytes (s.inputBytes s.argument)).complete .ok) := by
  have : ¬ 1024 < s.argument := by omega
  simp [exec, execAbsorb, h, this]

theorem exec_final_protocol (h : s.phase ≠ .absorbing) : exec .final s = .next (s.complete .protocol) := by
  simp [exec, execFinal, h]

/-- The lanes after FINAL's padding, before the permutation (R123). -/
def paddedLanes : Lanes :=
  xorStateByte (xorStateByte s.lanes s.cursor.toNat Config.padSuffix) (s.rate.toNat - 1) Config.padLast

theorem exec_final_ok (h : s.phase = .absorbing) :
    exec .final s = .next (State.complete
      { State.permute { s with lanes := paddedLanes s } with cursor := 0, phase := .finalized } .ok) := by
  simp [exec, execFinal, h, paddedLanes]

theorem exec_squeeze_protocol (h1 : s.phase ≠ .finalized) (h2 : s.phase ≠ .squeezing) :
    exec .squeeze s = .next (s.complete .protocol) := by
  simp [exec, execSqueeze, h1, h2]

theorem exec_squeeze_range (h : s.phase = .finalized ∨ s.phase = .squeezing) (hn : 1024 < s.argument) :
    exec .squeeze s = .next (s.complete .range) := by
  rcases h with h | h <;> simp [exec, execSqueeze, h, hn]

theorem exec_squeeze_ok (h : s.phase = .finalized ∨ s.phase = .squeezing) (hn : s.argument ≤ 1024) :
    exec .squeeze s = .next (State.complete { s.squeezeBytes s.argument with phase := .squeezing } .ok) := by
  have : ¬ 1024 < s.argument := by omega
  rcases h with h | h <;> simp [exec, execSqueeze, h, this]

theorem exec_padd (d a b : PReg) :
    exec (.padd d a b) s = .next ((s.setPoly d (polyOf fun k =>
      reduce (s.polys[a][k].toInt + s.polys[b][k].toInt))).complete .ok) := rfl

theorem exec_pmul (d a b : PReg) :
    exec (.pmul d a b) s = .next ((s.setPoly d (polyOf fun k =>
      reduce (negacyclic (coeffsOf s.polys[a]) (coeffsOf s.polys[b]) k))).complete .ok) := rfl

theorem exec_pred (d a : PReg) :
    exec (.pred d a) s = .next ((s.setPoly d (polyOf fun k => reduce (s.polys[a][k].toInt))).complete .ok) := rfl

theorem exec_p2r_same (d a : PReg) : exec (.p2r d d a) s = .next (s.complete .illegal) := by
  simp [exec, execP2r]

theorem exec_p2r (d e a : PReg) (h : d ≠ e) :
    exec (.p2r d e a) s = .next (((s.setPoly d (polyOf fun k => highPart (s.polys[a][k].toInt))).setPoly e
      (polyOf fun k => lowPart (s.polys[a][k].toInt))).complete .ok) := by
  simp [exec, execP2r, h, coeffsOf]

/-- What a command does, whatever it is: it raises an error, which is all that happens, or it does its own work
(R40, R165). -/
theorem exec_cases (i : Instr) :
    (∃ c, c ≠ .ok ∧ exec i s = .next (s.complete c)) ∨
    (i = .permute ∧ exec i s = .next (s.permute.complete .ok)) ∨
    (i = .sinit ∧ ∃ r, variantRate s.argument = some r ∧ exec i s = .next (State.complete
      { s with lanes := Vector.replicate 25 0, rate := r, cursor := 0, phase := .absorbing } .ok)) ∨
    (i = .absorb ∧ s.phase = .absorbing ∧ s.argument ≤ 1024 ∧
      exec i s = .next ((s.absorbBytes (s.inputBytes s.argument)).complete .ok)) ∨
    (i = .final ∧ s.phase = .absorbing ∧ exec i s = .next (State.complete
      { State.permute { s with lanes := paddedLanes s } with cursor := 0, phase := .finalized } .ok)) ∨
    (i = .squeeze ∧ (s.phase = .finalized ∨ s.phase = .squeezing) ∧ s.argument ≤ 1024 ∧
      exec i s = .next (State.complete { s.squeezeBytes s.argument with phase := .squeezing } .ok)) ∨
    (i.destinations ≠ [] ∧ ∃ ps, exec i s = .next (State.complete { s with polys := ps } .ok) ∧
      ∀ p : PReg, p ∉ i.destinations → ps[p] = s.polys[p]) := by
  cases i with
  | permute => exact .inr (.inl ⟨rfl, rfl⟩)
  | sinit =>
    cases h : variantRate s.argument with
    | none => exact .inl ⟨.config, by decide, exec_sinit_config s h⟩
    | some r => exact .inr (.inr (.inl ⟨rfl, r, rfl, exec_sinit_ok s h⟩))
  | absorb =>
    by_cases h : s.phase = .absorbing
    · by_cases hn : s.argument ≤ 1024
      · exact .inr (.inr (.inr (.inl ⟨rfl, h, hn, exec_absorb_ok s h hn⟩)))
      · exact .inl ⟨.range, by decide, exec_absorb_range s h (by omega)⟩
    · exact .inl ⟨.protocol, by decide, exec_absorb_protocol s h⟩
  | final =>
    by_cases h : s.phase = .absorbing
    · exact .inr (.inr (.inr (.inr (.inl ⟨rfl, h, exec_final_ok s h⟩))))
    · exact .inl ⟨.protocol, by decide, exec_final_protocol s h⟩
  | squeeze =>
    by_cases h : s.phase = .finalized ∨ s.phase = .squeezing
    · by_cases hn : s.argument ≤ 1024
      · exact .inr (.inr (.inr (.inr (.inr (.inl ⟨rfl, h, hn, exec_squeeze_ok s h hn⟩)))))
      · exact .inl ⟨.range, by decide, exec_squeeze_range s h (by omega)⟩
    · rw [not_or] at h
      exact .inl ⟨.protocol, by decide, exec_squeeze_protocol s h.1 h.2⟩
  | padd d a b =>
    refine .inr (.inr (.inr (.inr (.inr (.inr ⟨by simp [Instr.destinations], _, exec_padd s d a b, ?_⟩)))))
    intro p hp
    have h := setPoly_polys_getElem s d p (polyOf fun k => reduce (s.polys[a][k].toInt + s.polys[b][k].toInt))
    rwa [if_neg (by simpa [Instr.destinations] using hp)] at h
  | pmul d a b =>
    refine .inr (.inr (.inr (.inr (.inr (.inr ⟨by simp [Instr.destinations], _, exec_pmul s d a b, ?_⟩)))))
    intro p hp
    have h := setPoly_polys_getElem s d p
      (polyOf fun k => reduce (negacyclic (coeffsOf s.polys[a]) (coeffsOf s.polys[b]) k))
    rwa [if_neg (by simpa [Instr.destinations] using hp)] at h
  | pred d a =>
    refine .inr (.inr (.inr (.inr (.inr (.inr ⟨by simp [Instr.destinations], _, exec_pred s d a, ?_⟩)))))
    intro p hp
    have h := setPoly_polys_getElem s d p (polyOf fun k => reduce (s.polys[a][k].toInt))
    rwa [if_neg (by simpa [Instr.destinations] using hp)] at h
  | p2r d e a =>
    by_cases hde : d = e
    · subst hde
      exact .inl ⟨.illegal, by decide, exec_p2r_same s d a⟩
    · refine .inr (.inr (.inr (.inr (.inr (.inr ⟨by simp [Instr.destinations], _, exec_p2r s d e a hde, ?_⟩)))))
      intro p hp
      have hp' : p ≠ d ∧ p ≠ e := by simpa [Instr.destinations] using hp
      have h1 := setPoly_polys_getElem s d p (polyOf fun k => highPart (s.polys[a][k].toInt))
      have h2 := setPoly_polys_getElem (s.setPoly d (polyOf fun k => highPart (s.polys[a][k].toInt))) e p
        (polyOf fun k => lowPart (s.polys[a][k].toInt))
      rw [if_neg hp'.2] at h2
      rw [if_neg hp'.1] at h1
      exact h2.trans h1

end Sys2Proof.Machine
end

