-- ==== Sys2Proof/Laws/Flags.lean ====
section
/-! SUPPORT. The fields of the STATUS word (R29). -/

namespace Sys2Proof.Machine

variable (b o : Bool) (e : BitVec 4) (p : BitVec 2) (c : BitVec 8)

theorem statusOf_busy : (statusOf b o e p c).getLsbD 0 = b := by
  unfold statusOf; simp only [BitVec.getLsbD_append]; simp

theorem statusOf_ovr : (statusOf b o e p c).getLsbD 1 = o := by
  unfold statusOf; simp only [BitVec.getLsbD_append]; simp

/-- Every field and every reserved range of STATUS (R29). -/
theorem statusOf_fields :
    (statusOf b o e p c).extractLsb' 2 2 = 0 ∧ (statusOf b o e p c).extractLsb' 4 4 = e ∧
    (statusOf b o e p c).extractLsb' 8 2 = p ∧ (statusOf b o e p c).extractLsb' 10 6 = 0 ∧
    (statusOf b o e p c).extractLsb' 16 8 = c ∧ (statusOf b o e p c).extractLsb' 24 8 = 0 := by
  unfold statusOf
  refine ⟨?_, ?_, ?_, ?_, ?_, ?_⟩
  all_goals
    apply BitVec.eq_of_getLsbD_eq
    intro j hj
    simp only [BitVec.getLsbD_extractLsb', BitVec.getLsbD_append]
    interval_cases j <;> simp

end Sys2Proof.Machine
end

