-- ==== Sys2Proof/Laws/PerInstr.lean ====
section
/-! SUPPORT. Claims about every command as syntax, one lemma per constructor. -/

namespace Sys2Proof.Laws.EncodedFields

/-- The command's word holds its opcode in OP and zeros in RSV (30_encoding.md R70, R74), and no bit outside those its
opcode uses (R79). -/
def Statement (i : Instr) : Prop :=
  opField (encode i) = i.opcode ∧ rsvField (encode i) = 0 ∧ encode i &&& ~~~ i.usedMask = 0

theorem permute : Statement .permute := by unfold Statement; decide
theorem sinit : Statement .sinit := by unfold Statement; decide
theorem absorb : Statement .absorb := by unfold Statement; decide
theorem final : Statement .final := by unfold Statement; decide
theorem squeeze : Statement .squeeze := by unfold Statement; decide
theorem padd (d a b : PReg) : Statement (.padd d a b) := by unfold Statement; revert d a b; decide +kernel
theorem pmul (d a b : PReg) : Statement (.pmul d a b) := by unfold Statement; revert d a b; decide +kernel
theorem pred (d a : PReg) : Statement (.pred d a) := by unfold Statement; revert d a; decide +kernel
theorem p2r (d e a : PReg) : Statement (.p2r d e a) := by unfold Statement; revert d e a; decide +kernel

end Sys2Proof.Laws.EncodedFields
end

