-- ==== Sys2Proof/Laws/Reference.lean ====
section
/-! SUPPORT. The helpers of Reference.lean field by field, and ABSORB of a byte string put into the buffer first. Each lemma
about `withInput` goes by `simp only`, since comparing two whole states would evaluate the buffer. -/

namespace Sys2Proof.Reference

open Sys2Proof.Machine

@[simp] theorem withInput_phase (bs : List Byte) (s : State) : (withInput bs s).phase = s.phase := by
  simp only [withInput]

@[simp] theorem withInput_lanes (bs : List Byte) (s : State) : (withInput bs s).lanes = s.lanes := by
  simp only [withInput]

@[simp] theorem withInput_rate (bs : List Byte) (s : State) : (withInput bs s).rate = s.rate := by
  simp only [withInput]

@[simp] theorem withInput_cursor (bs : List Byte) (s : State) : (withInput bs s).cursor = s.cursor := by
  simp only [withInput]

@[simp] theorem withInput_iob (bs : List Byte) (s : State) : (withInput bs s).iob = loadBytes s.iob bs := by
  simp only [withInput]

/-- The number of bytes put into the buffer is the argument, when they fit. -/
theorem withInput_argument (bs : List Byte) (s : State) (h : bs.length ≤ 1024) :
    (withInput bs s).argument = bs.length := by
  simp only [State.argument, withInput, BitVec.toNat_ofNat]; omega

theorem withArgument_argument (n : Nat) (s : State) (h : n < 4294967296) : (withArgument n s).argument = n := by
  simp only [State.argument, withArgument, BitVec.toNat_ofNat]; omega

/-- Putting input into the buffer changes nothing the loops of ABSORB and SQUEEZE read of the sponge. -/
theorem withInput_sameCore (bs : List Byte) (s : State) : sameCore (withInput bs s) s := by
  refine ⟨?_, ?_, ?_⟩ <;> simp only [withInput]

/-- The front of the loaded buffer is the byte string. -/
theorem loadBytes_take (iob : Vector Byte 1024) (bs : List Byte) (h : bs.length ≤ 1024) :
    (loadBytes iob bs).toList.take bs.length = bs := by
  apply List.ext_getElem
  · simp; omega
  · intro i h1 h2
    simp [loadBytes, List.getElem_take, h2]

/-- ABSORB of a byte string put into the buffer runs its loop over exactly that string (R122). -/
theorem exec_absorb_withInput (bs : List Byte) (s : State) (hp : s.phase = .absorbing) (h : bs.length ≤ 1024) :
    exec .absorb (withInput bs s) = .next (((withInput bs s).absorbBytes bs).complete .ok) := by
  have hn := withInput_argument bs s h
  rw [exec_absorb_ok (withInput bs s) ((withInput_phase bs s).trans hp) (by rw [hn]; exact h), hn,
    State.inputBytes, withInput_iob, loadBytes_take _ _ h]

@[simp] theorem andThen_next (s : State) (f : State → Host.Outcome State Fault Refusal) :
    andThen (.next s) f = f s := rfl

/-- A command that leaves ARG, RATE and the buffer, and polynomial words and lanes outside a range of offsets, leaves every
byte of the window outside that range (R51). -/
theorem sameWindowOutside_of {s t : State} {lo hi : Nat} (harg : t.arg = s.arg) (hrate : t.rate = s.rate)
    (hlanes : t.lanes = s.lanes ∨ (lo ≤ 0x0100 ∧ 0x01C8 ≤ hi)) (hiob : t.iob = s.iob)
    (hpolys : ∀ (p : PReg) (k : Fin 256), ¬(lo ≤ 0x2000 + 0x400 * p.val + 4 * k.val ∧
      0x2004 + 0x400 * p.val + 4 * k.val ≤ hi) → t.polys[p][k] = s.polys[p][k])
    (hlo : lo % 4 = 0) (hhi : hi % 4 = 0) : sameWindowOutside s t lo hi := by
  intro a ha hst
  apply windowByte_congr
  refine peek_congr harg (.inl hrate) hst (hlanes.imp id (fun h => by omega)) (fun w _ => by rw [hiob]) ?_
  intro p k hr
  have hb := regionOf_offsets a
  rw [hr] at hb
  simp only [Region.offsets] at hb
  exact hpolys p k (by omega)

end Sys2Proof.Reference
end

