-- ==== Sys2Proof/Laws/Step.lean ====
section
/-! SUPPORT. What a step can do (R40, R41, R180), and that a command's effect does not depend on OVR, on what hosts have read,
on the agenda, or on the free draws made before it. -/

namespace Sys2Proof.Machine

/-- Equal in everything KSR1 shows or will use: all but OVR, the hidden counters, the reset input and the fields of the
model's own. -/
def sameArch (s t : State) : Prop :=
  s.lanes = t.lanes ∧ s.rate = t.rate ∧ s.cursor = t.cursor ∧ s.phase = t.phase ∧ s.polys = t.polys ∧
  s.iob = t.iob ∧ s.arg = t.arg ∧ s.busy = t.busy ∧ s.err = t.err ∧ s.pendCmd = t.pendCmd ∧ s.pendArg = t.pendArg

theorem sameArch.refl (s : State) : sameArch s s := ⟨rfl, rfl, rfl, rfl, rfl, rfl, rfl, rfl, rfl, rfl, rfl⟩

theorem sameArch.trans {s t u : State} (h : sameArch s t) (k : sameArch t u) : sameArch s u := by
  obtain ⟨h1, h2, h3, h4, h5, h6, h7, h8, h9, h10, h11⟩ := h
  obtain ⟨k1, k2, k3, k4, k5, k6, k7, k8, k9, k10, k11⟩ := k
  exact ⟨h1.trans k1, h2.trans k2, h3.trans k3, h4.trans k4, h5.trans k5, h6.trans k6, h7.trans k7, h8.trans k8,
    h9.trans k9, h10.trans k10, h11.trans k11⟩

/-- Ending a command keeps two states equal. -/
theorem sameArch.complete {s t : State} (h : sameArch s t) (c : ErrCode) : sameArch (s.complete c) (t.complete c) := by
  obtain ⟨h1, h2, h3, h4, h5, h6, h7, -, -, h10, h11⟩ := h
  exact ⟨h1, h2, h3, h4, h5, h6, h7, rfl, rfl, h10, h11⟩

/-- Writing one polynomial register keeps two states equal. -/
theorem sameArch.setPoly {s t : State} (h : sameArch s t) (d : PReg) (v : Poly) :
    sameArch (s.setPoly d v) (t.setPoly d v) := by
  obtain ⟨h1, h2, h3, h4, h5, h6, h7, h8, h9, h10, h11⟩ := h
  simp only [sameArch, setPoly_lanes, setPoly_rate, setPoly_cursor, setPoly_phase, setPoly_polys, setPoly_iob, setPoly_arg,
    setPoly_busy, setPoly_err, setPoly_pendCmd, setPoly_pendArg, h1, h2, h3, h4, h5, h6, h7, h8, h9, h10, h11, and_self]

theorem sameArch.absorbBytes {s t : State} (h : sameArch s t) (bs : List Byte) :
    sameArch (s.absorbBytes bs) (t.absorbBytes bs) := by
  have hc := absorbBytes_congr bs (s := s) (t := t) ⟨h.1, h.2.2.1, h.2.1⟩
  obtain ⟨A, c, r, i, n, e⟩ := absorbBytes_frame bs s
  obtain ⟨A', c', r', i', n', e'⟩ := absorbBytes_frame bs t
  rw [e, e'] at hc ⊢
  obtain ⟨h1, h2, h3, h4, h5, h6, h7, h8, h9, h10, h11⟩ := h
  exact ⟨hc.1, h2, hc.2.1, h4, h5, h6, h7, h8, h9, h10, h11⟩

theorem sameArch.squeezeByte {s t : State} (h : sameArch s t) (k : Nat) :
    sameArch (s.squeezeByte k) (t.squeezeByte k) := by
  have hc := squeezeByte_congr (s := s) (t := t) ⟨h.1, h.2.2.1, h.2.1⟩ k k
  obtain ⟨A, c, r, i, n, e⟩ := squeezeByte_frame s k
  obtain ⟨A', c', r', i', n', e'⟩ := squeezeByte_frame t k
  rw [e, e'] at hc ⊢
  obtain ⟨h1, h2, h3, h4, h5, h6, h7, h8, h9, h10, h11⟩ := h
  exact ⟨hc.1, h2, hc.2.1, h4, h5, by simp only [h1, h3, h6], h7, h8, h9, h10, h11⟩

theorem sameArch.squeezeBytes {s t : State} (h : sameArch s t) (n : Nat) :
    sameArch (s.squeezeBytes n) (t.squeezeBytes n) := by
  induction n with
  | zero => exact h
  | succ n ih => rw [squeezeBytes_succ, squeezeBytes_succ]; exact ih.squeezeByte n

/-- Every command answers a next state, with BUSY = 0, and leaves ARG, OVR, the pending command, the reset input, the
agenda and the answers of reads (R31, R33, R40). -/
theorem exec_next (i : Instr) (s : State) :
    ∃ t, exec i s = .next t ∧ t.busy = false ∧ Reference.sameControl s t := by
  obtain h | h | h | h | h | h | h := exec_cases s i
  · obtain ⟨c, -, h⟩ := h
    exact ⟨_, h, rfl, rfl, rfl, rfl, rfl, rfl, rfl, rfl⟩
  · exact ⟨_, h.2, rfl, rfl, rfl, rfl, rfl, rfl, rfl, rfl⟩
  · obtain ⟨_, r, _, h⟩ := h
    exact ⟨_, h, rfl, rfl, rfl, rfl, rfl, rfl, rfl, rfl⟩
  · obtain ⟨_, _, _, _, _, e⟩ := absorbBytes_frame (s.inputBytes s.argument) s
    rw [e] at h
    exact ⟨_, h.2.2.2, rfl, rfl, rfl, rfl, rfl, rfl, rfl, rfl⟩
  · exact ⟨_, h.2.2, rfl, rfl, rfl, rfl, rfl, rfl, rfl, rfl⟩
  · obtain ⟨_, _, _, _, _, _, e, -⟩ := squeezeBytes_frame s.argument s
    rw [e] at h
    exact ⟨_, h.2.2.2, rfl, rfl, rfl, rfl, rfl, rfl, rfl, rfl⟩
  · obtain ⟨_, ps, h, _⟩ := h
    exact ⟨_, h, rfl, rfl, rfl, rfl, rfl, rfl, rfl, rfl⟩

/-- A command's effect is a function of what `sameArch` compares. -/
theorem exec_congr (i : Instr) {s t : State} (h : sameArch s t) :
    ∃ s' t', exec i s = .next s' ∧ exec i t = .next t' ∧ sameArch s' t' := by
  have harg : s.argument = t.argument := by
    rw [State.argument, State.argument, h.2.2.2.2.2.2.2.2.2.2]
  obtain ⟨h1, h2, h3, h4, h5, h6, h7, h8, h9, h10, h11⟩ := id h
  cases i with
  | permute =>
    refine ⟨_, _, exec_permute s, exec_permute t, ?_⟩
    simp only [sameArch, complete_lanes, complete_rate, complete_cursor, complete_phase, complete_polys, complete_iob,
      complete_arg, complete_busy, complete_err, complete_pendCmd, complete_pendArg, permute_lanes, permute_rate,
      permute_cursor, permute_phase, permute_polys, permute_iob, permute_arg, permute_pendCmd, permute_pendArg,
      h1, h2, h3, h4, h5, h6, h7, h10, h11, and_self]
  | sinit =>
    cases hv : variantRate s.argument with
    | none => exact ⟨_, _, exec_sinit_config s hv, exec_sinit_config t (harg ▸ hv), h.complete _⟩
    | some r =>
      exact ⟨_, _, exec_sinit_ok s hv, exec_sinit_ok t (harg ▸ hv), rfl, rfl, rfl, rfl, h5, h6, h7, rfl, rfl, h10, h11⟩
  | absorb =>
    by_cases hp : s.phase = .absorbing
    · by_cases hn : s.argument ≤ 1024
      · refine ⟨_, _, exec_absorb_ok s hp hn, exec_absorb_ok t (h4 ▸ hp) (harg ▸ hn), ?_⟩
        rw [harg, State.inputBytes, State.inputBytes, h6]
        exact (h.absorbBytes _).complete _
      · exact ⟨_, _, exec_absorb_range s hp (by omega), exec_absorb_range t (h4 ▸ hp) (by omega), h.complete _⟩
    · exact ⟨_, _, exec_absorb_protocol s hp, exec_absorb_protocol t (h4 ▸ hp), h.complete _⟩
  | final =>
    by_cases hp : s.phase = .absorbing
    · refine ⟨_, _, exec_final_ok s hp, exec_final_ok t (h4 ▸ hp), ?_⟩
      simp only [sameArch, complete_lanes, complete_rate, complete_cursor, complete_phase, complete_polys, complete_iob,
        complete_arg, complete_busy, complete_err, complete_pendCmd, complete_pendArg, permute_lanes, permute_rate,
        permute_polys, permute_iob, permute_arg, permute_pendCmd, permute_pendArg, paddedLanes,
        h1, h2, h3, h5, h6, h7, h10, h11, and_self]
    · exact ⟨_, _, exec_final_protocol s hp, exec_final_protocol t (h4 ▸ hp), h.complete _⟩
  | squeeze =>
    by_cases hp : s.phase = .finalized ∨ s.phase = .squeezing
    · by_cases hn : s.argument ≤ 1024
      · refine ⟨_, _, exec_squeeze_ok s hp hn, exec_squeeze_ok t (h4 ▸ hp) (harg ▸ hn), ?_⟩
        rw [harg]
        obtain ⟨k1, k2, k3, k4, k5, k6, k7, k8, k9, k10, k11⟩ := h.squeezeBytes t.argument
        exact ⟨k1, k2, k3, rfl, k5, k6, k7, rfl, rfl, k10, k11⟩
      · exact ⟨_, _, exec_squeeze_range s hp (by omega), exec_squeeze_range t (h4 ▸ hp) (by omega), h.complete _⟩
    · have hp' := not_or.mp hp
      exact ⟨_, _, exec_squeeze_protocol s hp'.1 hp'.2, exec_squeeze_protocol t (h4 ▸ hp'.1) (h4 ▸ hp'.2), h.complete _⟩
  | padd d a b =>
    refine ⟨_, _, exec_padd s d a b, exec_padd t d a b, ?_⟩
    rw [h5]
    exact (h.setPoly _ _).complete _
  | pmul d a b =>
    refine ⟨_, _, exec_pmul s d a b, exec_pmul t d a b, ?_⟩
    rw [h5]
    exact (h.setPoly _ _).complete _
  | pred d a =>
    refine ⟨_, _, exec_pred s d a, exec_pred t d a, ?_⟩
    rw [h5]
    exact (h.setPoly _ _).complete _
  | p2r d e a =>
    by_cases hde : d = e
    · subst hde
      exact ⟨_, _, exec_p2r_same s d a, exec_p2r_same t d a, h.complete _⟩
    · refine ⟨_, _, exec_p2r s d e a hde, exec_p2r t d e a hde, ?_⟩
      rw [h5]
      exact ((h.setPoly _ _).setPoly _ _).complete _

/-- The pending word's effect: an illegal word completes with ILLEGAL, a legal one is executed (R78). -/
theorem execPending_cases (s : State) :
    (∃ r, decode s.pendCmd = .reject r ∧ execPending s = .next (s.complete .illegal)) ∨
    (∃ i, decode s.pendCmd = .instr i ∧ execPending s = exec i s) := by
  unfold execPending
  cases h : decode s.pendCmd with
  | instr i => exact .inr ⟨i, rfl, rfl⟩
  | reject r => exact .inl ⟨r, rfl, rfl⟩

theorem coreStep_busy (s : State) (h : s.busy = true) (hr : s.resetPin = false) : coreStep s = execPending s := by
  simp [coreStep, h, hr]

theorem coreStep_idle (s : State) (h : s.busy = false ∨ s.resetPin = true) : coreStep s = .next s := by
  rcases h with h | h <;> simp [coreStep, h]

/-- The core's turn always answers a next state: it completes the pending command, or does nothing (R40). -/
theorem coreStep_next (s : State) : ∃ t, coreStep s = .next t ∧ Reference.sameControl s t ∧
    (s.resetPin = false → t.busy = false) ∧ (s.busy = false → t = s) := by
  by_cases hb : s.busy = true
  · by_cases hr : s.resetPin = false
    · rw [coreStep_busy s hb hr]
      rcases execPending_cases s with ⟨r, -, h⟩ | ⟨i, -, h⟩
      · exact ⟨_, h, ⟨rfl, rfl, rfl, rfl, rfl, rfl, rfl⟩, fun _ => rfl, fun h' => by simp [hb] at h'⟩
      · obtain ⟨t, ht, hb', hc⟩ := exec_next i s
        exact ⟨t, h.trans ht, hc, fun _ => hb', fun h' => by simp [hb] at h'⟩
    · have hr' : s.resetPin = true := by simpa using hr
      exact ⟨s, coreStep_idle s (.inr hr'), ⟨rfl, rfl, rfl, rfl, rfl, rfl, rfl⟩, fun h' => absurd h' hr, fun _ => rfl⟩
  · have hb' : s.busy = false := by simpa using hb
    exact ⟨s, coreStep_idle s (.inl hb'), ⟨rfl, rfl, rfl, rfl, rfl, rfl, rfl⟩, fun _ => hb', fun _ => rfl⟩

theorem step_nil (s : State) (h : s.agenda = []) : step s = coreStep s := by
  simp [step, advance, h]

theorem step_cons (s : State) (e : Event) (rest : List Event) (h : s.agenda = e :: rest) :
    step s = runEvent e { s with agenda := rest } := by
  simp [step, advance, h]

theorem step_host {s : State} {a : Access} {rest : List Event} (h : s.agenda = .host a :: rest) :
    step s = hostStep a { s with agenda := rest } := step_cons s _ rest h

theorem step_core {s : State} {rest : List Event} (h : s.agenda = .core :: rest) :
    step s = coreStep { s with agenda := rest } := step_cons s _ rest h

/-- An event that stops no run answers a next state with the rest of the agenda. -/
theorem step_event {s : State} {e : Event} {rest : List Event} (h : s.agenda = e :: rest) (he : e.Ok) :
    ∃ t, step s = .next t ∧ t.agenda = rest := by
  rw [step_cons s e rest h]
  cases e with
  | host a =>
    obtain ⟨t, ht⟩ := hostStep_next a { s with agenda := rest } he
    refine ⟨t, ht, ?_⟩
    obtain ⟨n, v, rfl⟩ | ⟨_, rfl⟩ | ⟨_, _, off, w, rfl⟩ | rfl := hostStep_cases ht
    · rfl
    · rfl
    · obtain h | h | h | ⟨A, h⟩ | ⟨A, h⟩ | ⟨A, h⟩ := poke_cases { s with agenda := rest } off w <;>
        (rw [h]; try rfl)
    · rfl
  | core => obtain ⟨t, h1, h2, -⟩ := coreStep_next { s with agenda := rest }; exact ⟨t, h1, h2.2.2.2.2.2.1⟩
  | assertReset => exact ⟨_, rfl, rfl⟩
  | releaseReset => exact ⟨_, rfl, rfl⟩

/-- All a step can do (R40, R41, R180). -/
theorem step_cases {s t : State} (h : step s = .next t) :
    (s.agenda = [] ∧ coreStep s = .next t) ∨
    (∃ rest, s.agenda = .core :: rest ∧ coreStep { s with agenda := rest } = .next t) ∨
    (∃ a rest, s.agenda = .host a :: rest ∧ hostStep a { s with agenda := rest } = .next t) ∨
    (∃ rest, s.agenda = .assertReset :: rest ∧ t = State.assertReset { s with agenda := rest }) ∨
    (∃ rest, s.agenda = .releaseReset :: rest ∧ t = State.releaseReset { s with agenda := rest }) := by
  cases ha : s.agenda with
  | nil => exact .inl ⟨rfl, step_nil s ha ▸ h⟩
  | cons e rest =>
    rw [step_cons s e rest ha] at h
    cases e with
    | host a => exact .inr (.inr (.inl ⟨a, rest, rfl, h⟩))
    | core => exact .inr (.inl ⟨rest, rfl, h⟩)
    | assertReset =>
      refine .inr (.inr (.inr (.inl ⟨rest, rfl, ?_⟩)))
      injection h with h; exact h.symm
    | releaseReset =>
      refine .inr (.inr (.inr (.inr ⟨rest, rfl, ?_⟩)))
      injection h with h; exact h.symm

/-- Runs, one step at a time. -/
theorem runSteps_zero (s : State) : runSteps 0 s = .next s := rfl

theorem runSteps_succ {s t : State} (k : Nat) (h : step s = .next t) : runSteps (k + 1) s = runSteps k t := by
  have h' : Sys2Proof.core.step s = .next t := h
  simp only [runSteps, Host.Core.run, h']
  rfl

end Sys2Proof.Machine
end

