-- ==== Sys2Proof/Tests/Slice0.lean ====
section
/-! SUPPORT. Tests of single steps against values the spec prints (95_test_vectors.md, the rules' worked examples), and for every
statement with hypotheses a state and operands that meet them all. No expected value comes from the model. -/

namespace Sys2Proof.Tests

open Sys2Proof.Machine Sys2Proof.Reference

/-! ### Well-formedness and encoding -/

/-- The one ill-formed term of Syntax (R78), and its legal neighbours. -/
theorem test_wf_refuses_p2r_same : ¬ (Instr.p2r 3 3 2).WellFormed := by decide
theorem test_wf_accepts_p2r_aliased_source : (Instr.p2r 3 4 3).WellFormed ∧ (Instr.p2r 3 4 4).WellFormed := by decide

/-- R79: the words with no operand. -/
theorem test_decode_sponge_words :
    decode 0b00000000000000000000000000000001 = .instr .permute ∧
    decode 0b00000000000000000000000000000010 = .instr .sinit ∧
    decode 0b00000000000000000000000000000011 = .instr .absorb ∧
    decode 0b00000000000000000000000000000100 = .instr .final ∧
    decode 0b00000000000000000000000000000101 = .instr .squeeze := by decide

/-- R70 and R79, written out as RSV_E_B_A_D_OP: PADD p3, p2, p1; PMUL p2, p0, p1; PRED p5, p2; P2R p3, p4, p2. -/
theorem test_decode_ring_words :
    decode 0b000000000000_000_001_010_011_00010000 = .instr (.padd 3 2 1) ∧
    decode 0b000000000000_000_001_000_010_00010001 = .instr (.pmul 2 0 1) ∧
    decode 0b000000000000_000_000_010_101_00010010 = .instr (.pred 5 2) ∧
    decode 0b000000000000_100_000_010_011_00010011 = .instr (.p2r 3 4 2) := by decide

/-- 95_test_vectors.md section 5: the words that are ILLEGAL. -/
theorem test_decode_rejects :
    decode 0x00000000 = .reject .unassignedOp ∧ decode 0x00000006 = .reject .unassignedOp ∧
    decode 0x000000FF = .reject .unassignedOp ∧ decode 0x00000014 = .reject .unassignedOp ∧
    decode 0x00100001 = .reject .reservedBits ∧ decode 0x80000001 = .reject .reservedBits ∧
    decode 0xFFF04201 = .reject .reservedBits ∧ decode 0x00100003 = .reject .reservedBits ∧
    decode 0x00060313 = .reject .p2rSameDestination ∧ decode 0x00000013 = .reject .p2rSameDestination := by decide

/-- Section 5: unused fields are ignored (R73). -/
theorem test_decode_ignores_unused :
    decode 0x000FFF01 = .instr .permute ∧ decode 0x00007F12 = .instr (.pred 7 7) := by decide

/-- R79: the encoder's words. -/
theorem test_encode_words :
    encode .squeeze = 0x00000005 ∧ encode (.padd 3 2 1) = 0x00005310 ∧ encode (.pmul 2 0 1) = 0x00004211 ∧
    encode (.pred 5 2) = 0x00001512 ∧ encode (.p2r 3 4 2) = 0x00081313 := by decide

/-- No two rows of the opcode map share an opcode (R74). -/
theorem test_opcodes_distinct :
    ([.permute, .sinit, .absorb, .final, .squeeze, .padd 0 0 0, .pmul 0 0 0, .pred 0 0, .p2r 0 1 0] : List Instr).Pairwise
      (fun i j => i.opcode ≠ j.opcode) := by decide

theorem test_decodeTableWord :
    decodeTableWord 32 0x00004211 = some (.pmul 2 0 1) ∧ decodeTableWord 32 0x00000013 = none := by decide

/-! ### Helpers -/

/-- A field of the next state. -/
def after {α : Type} (o : Host.Outcome State Fault Refusal) (f : State → α) : Option α :=
  match o with
  | .next t => some (f t)
  | .fault _ => none
  | .refused _ => none

/-- A machine with a command pending. -/
def pending (w arg : Word) : State := { State.reset with busy := true, pendCmd := w, pendArg := arg }

/-- A machine in the middle of a sponge computation. -/
def sponge (ph : Phase) (rate cursor : BitVec 8) (arg : Word) : State :=
  { State.reset with phase := ph, rate := rate, cursor := cursor, pendArg := arg }

/-- A machine whose next event is a host access. -/
def hosted (busy : Bool) (es : List Event) : State := { State.reset with busy := busy, agenda := es }

/-- The polynomial whose only coefficient is `c`, at degree `i`. -/
def mono (i : Fin 256) (c : Int) : Poly := (Vector.replicate 256 0).set i.val (word32 c)

theorem mono_getElem (i k : Fin 256) (c : Int) : (mono i c)[k] = if k = i then word32 c else 0 := by
  simp only [mono, Fin.getElem_fin, Vector.getElem_set, Vector.getElem_replicate, Fin.ext_iff, eq_comm]

/-- A machine with two polynomial registers loaded. -/
def ringState (a b : Poly) : State := { State.reset with polys := ((Vector.replicate 8 (mono 0 0)).set 0 a).set 1 b }

/-! ### The permutation core (95_test_vectors.md section 2.4; R110) -/

/-- R110 b: θ of the state with LANE[1] = 1. -/
theorem test_theta_lane1 : (theta ((Vector.replicate 25 0).set 1 1)).toList =
    [2, 1, 1, 0, 0, 2, 0, 1, 0, 0, 2, 0, 1, 0, 0, 2, 0, 1, 0, 0, 2, 0, 1, 0, 0] := by decide +kernel

/-- Round 0 of the zero state, then round 1. -/
theorem test_rounds_0_and_1 :
    (keccakRound (Vector.replicate 25 0) 0).toList = 1 :: List.replicate 24 0 ∧
    (keccakRound ((Vector.replicate 25 0).set 0 1) 1).toList =
      [0x8083, 0x100000000000, 0x8000, 0x1, 0x100000008000, 0, 0x200000200000, 0, 0x200000000000, 0x200000, 0x2, 0x200,
       0, 0x202, 0, 0x10000400, 0, 0x400, 0x10000000, 0, 0x10000000000, 0, 0x10000000004, 0, 0x4] := by decide +kernel

/-- R110 d: χ maps the state of all ones to itself. -/
theorem test_chi_ones : chi (Vector.replicate 25 (-1)) = Vector.replicate 25 (-1) := by decide +kernel

/-- Section 2.5: PERMUTE in phase ABSORBING leaves CURSOR, PHASE and RATE. -/
theorem test_permute_keeps_control :
    after (exec .permute (sponge .absorbing 168 3 0)) (fun t => (t.cursor, t.phase, t.rate, t.err)) =
      some (3, .absorbing, 168, .ok) := by decide +kernel

/-! ### The sponge (section 3.2, section 5) -/

/-- S1, and the CONFIG row with ARG = 0x00010080. -/
theorem test_sinit :
    after (exec .sinit (sponge .squeezing 136 9 128)) (fun t => (t.rate, t.statusWord, t.lanes.toList)) =
      some (168, 0x00000100, List.replicate 25 0) := by decide +kernel
theorem test_sinit_config : after (exec .sinit (sponge .idle 0 0 0x00010080)) (fun t => (t.err, t.rate, t.phase)) =
    some (.config, 0, .idle) := by decide +kernel

/-- S2: "abc" absorbed at rate 168. -/
theorem test_absorb_abc :
    after (exec .absorb { sponge .absorbing 168 0 3 with iob := ((tabulate fun _ => 0xFF).set 0 0x61).set 1 0x62 |>.set 2 0x63 })
      (fun t => (t.lanes.toList, t.statusWord)) = some (0x636261 :: List.replicate 24 0, 0x00030100) := by decide +kernel
/-- ABSORB with ARG = 2000 in phase IDLE reports PROTOCOL. -/
theorem test_absorb_protocol_first : after (exec .absorb (sponge .idle 0 0 2000)) (fun t => t.err) = some .protocol := by
  decide +kernel

/-- S7: both padding bytes hit SB(135). -/
theorem test_final_pads_one_byte : stateByte (paddedLanes (sponge .absorbing 136 135 0)) 135 = 0x9F := by decide +kernel
/-- S3 and "finalize called twice". -/
theorem test_final_phase :
    after (exec .final (sponge .absorbing 168 3 0)) (fun t => (t.cursor, t.phase, t.err)) = some (0, .finalized, .ok) ∧
    after (exec .final (sponge .finalized 168 0 0)) (fun t => t.err) = some .protocol := by decide +kernel

/-- S4: four bytes of the lanes of S3. -/
theorem test_squeeze_4 :
    after (exec .squeeze { sponge .finalized 168 0 4 with lanes := (Vector.replicate 25 0).set 0 0x5CBF18D82D098158 })
      (fun t => (t.iob.toList.take 4, t.peek 0x0400, t.statusWord)) =
      some ([0x58, 0x81, 0x09, 0x2d], 0x2D098158, 0x00040300) := by decide +kernel
/-- S17: SQUEEZE of nothing moves the phase; and n = 1025 reports RANGE. -/
theorem test_squeeze_0_and_1025 :
    after (exec .squeeze (sponge .finalized 168 0 0)) (fun t => t.statusWord) = some 0x00000300 ∧
    after (exec .squeeze (sponge .squeezing 168 0 1025)) (fun t => t.err) = some .range := by decide +kernel

/-! ### The ring (section 4) -/

/-- Section 4.1: two large words, and (Q - 1) + 1. -/
theorem test_padd_wide :
    after (exec (.padd 2 0 1) (ringState (mono 7 0x7FFFFFFF) (mono 7 0x7FFFFFFF))) (fun t => t.polys[2][7]) =
      some 4193790 := by decide +kernel
theorem test_padd_wraps : after (exec (.padd 1 0 1) (ringState (mono 0 8380416) (mono 0 1))) (fun t => t.polys[1][0]) =
    some 0 := by decide +kernel

/-- Section 4.2: X^255 times X. -/
theorem test_pmul_wraps : after (exec (.pmul 2 0 1) (ringState (mono 255 1) (mono 1 1)))
    (fun t => t.polys[2][0]) = some 8380416 := by decide +kernel

/-- Section 4.3. -/
theorem test_pred_negative : after (exec (.pred 1 1) (ringState (mono 0 0) (mono 0 (-2)))) (fun t => t.polys[1][0]) =
    some 8380415 := by decide +kernel
theorem test_pred_lowest : after (exec (.pred 5 0) (ringState (mono 9 (-2147483648)) (mono 0 0))) (fun t => t.polys[5][9]) =
    some 6283521 := by decide +kernel

/-- Section 4.4: t = -1, and t = 5000000 with the source as a destination. -/
theorem test_p2r_minus_one : after (exec (.p2r 3 4 0) (ringState (mono 0 (-1)) (mono 0 0)))
    (fun t => (t.polys[3][0], t.polys[4][0])) = some (0xFFFFFFFF, 0x00001FFF) := by decide +kernel
theorem test_p2r_aliased : after (exec (.p2r 1 0 0) (ringState (mono 3 5000000) (mono 0 0)))
    (fun t => (t.polys[1][3], t.polys[0][3])) = some (0x00000262, 0x00000B40) := by decide +kernel

/-! ### The step, the window and reset -/

/-- The row's word as the first command after reset: SINIT with ARG = 0 reports CONFIG (section 5), PADD completes. -/
theorem test_step_of_withFetchWord :
    after (step (State.reset.withFetchWord 32 0x00000002)) (fun t => (t.err, t.busy)) = some (.config, false) ∧
    after (step (State.reset.withFetchWord 32 0x00005310)) (fun t => (t.err, t.busy)) = some (.ok, false) := by
  decide +kernel

/-- P1 and P2 of section 6: ID, STATUS after reset, and RATE after SINIT 128. -/
theorem test_reads_after_reset : State.reset.peek 0x0000 = 0x4B535231 ∧ State.reset.peek 0x000C = 0 := by decide +kernel
theorem test_read_rate : (sponge .absorbing 168 17 0).peek 0x0010 = 0x000000A8 ∧
    (sponge .absorbing 168 17 0).peek 0x000C = 0x00110100 := by decide +kernel

/-- P3 of section 6: the window of P7 and of P0 (`WR 0x23FC`, `WR 0x3C00`). -/
theorem test_poly_window : regionOf 0x23FC = .poly 0 255 ∧ regionOf 0x3C00 = .poly 7 0 ∧ regionOf 0x2404 = .poly 1 1 := by
  decide

/-- Section 2.1: a lane's low word is at the lower offset, and its lowest byte is state byte 0. -/
theorem test_lane_window :
    let s := { State.reset with lanes := (Vector.replicate 25 0).set 24 0xEAF1FF7B5CECA249 }
    s.peek 0x01C0 = 0x5CECA249 ∧ s.peek 0x01C4 = 0xEAF1FF7B ∧ stateByte s.lanes 192 = 0x49 := by decide +kernel

/-! ### Witnesses: every statement's hypotheses are met together -/

theorem witness_DecodeOfEncode : (Instr.p2r 7 0 7).WellFormed := by decide

theorem witness_EncodeOfDecode : decode 0x000E3F13 = .reject .p2rSameDestination ∧
    decode 0x000C3F13 = .instr (.p2r 7 6 7) := by decide

theorem witness_UnusedFieldsAreIgnored : decode 0x00000001 = .instr .permute ∧
    ((0x00000001 : Word) ^^^ 0x000FFF01) &&& Instr.permute.usedMask = 0 ∧
    (pending 0x00000001 0).agenda = [] ∧ (pending 0x00000001 0).busy = true ∧ (pending 0x00000001 0).resetPin = false ∧
    (pending 0x00000001 0).pendCmd = 0x00000001 := by decide

/-- A word for each of the three causes (R161). -/
theorem witness_IllegalWordSetsErrOnly (w : Word) (h : w = 0x00100001 ∨ w = 0x00000006 ∨ w = 0x00060313) :
    (pending w 0).agenda = [] ∧ (pending w 0).busy = true ∧ (pending w 0).resetPin = false ∧
      illegalWord (pending w 0).pendCmd := by
  refine ⟨rfl, rfl, rfl, ?_⟩
  simp only [pending, illegalWord]
  rcases h with rfl | rfl | rfl <;> decide
/-- The same words with the core's turn in the middle of an agenda. -/
theorem witness_IllegalWordSetsErrOnly_turn (w : Word) (h : w = 0x00100001 ∨ w = 0x00000006 ∨ w = 0x00060313) :
    let s := { pending w 0 with agenda := [.core, .host (.read 4 0x000C)] }
    s.busy = true ∧ s.resetPin = false ∧ illegalWord s.pendCmd ∧ s.agenda = .core :: [.host (.read 4 0x000C)] :=
  ⟨rfl, rfl, (witness_IllegalWordSetsErrOnly w h).2.2.2, rfl⟩

theorem witness_StepRunsDecodedCommand :
    decode (pending 0x00004211 0).pendCmd = .instr (.pmul 2 0 1) ∧ (pending 0x00004211 0).agenda = [] ∧
    (pending 0x00004211 0).busy = true ∧ (pending 0x00004211 0).resetPin = false := by decide
theorem witness_StepRunsDecodedCommand_turn :
    let s := { pending 0x00004211 0 with agenda := [.core, .core] }
    decode s.pendCmd = .instr (.pmul 2 0 1) ∧ s.agenda = .core :: [.core] ∧ s.busy = true ∧ s.resetPin = false := by decide

theorem witness_IdleCoreHasNoStep : State.reset.busy = false ∧ State.reset.agenda = [] ∧
    (hosted false [.core]).busy = false ∧ (hosted false [.core]).agenda = .core :: [] := by decide

theorem witness_CmdWriteIsAccepted :
    let s := hosted false [.host (.write 4 0x0004 0x00000001), .core]
    s.busy = false ∧ s.resetPin = false ∧ s.agenda = .host (.write 4 0x0004 0x00000001) :: [.core] := by decide

theorem witness_DoCommandCompletes :
    let s := hosted false (hostAgenda 2 (doCommand (.p2r 3 4 2)) ++ [.core])
    (Instr.p2r 3 4 2).WellFormed ∧ s.busy = false ∧ s.resetPin = false ∧
      s.agenda = hostAgenda 2 (doCommand (.p2r 3 4 2)) ++ [.core] := by decide

/-- At the first and the last offset of the window. -/
theorem witness_BusyWriteSetsOvrOnly (off : Nat) (h : off = 0 ∨ off = 0x3FFC) :
    let s := hosted true [.host (.write 4 off 5)]
    s.busy = true ∧ s.resetPin = false ∧ off % 4 = 0 ∧ off < 0x4000 ∧ s.agenda = .host (.write 4 off 5) :: [] := by
  rcases h with rfl | rfl <;> decide

theorem witness_OvrIsSticky :
    ∃ t, step (hosted true [.host (.write 4 0x3FFC 5)]) = .next t ∧ t.ovr ≠ (hosted true [.host (.write 4 0x3FFC 5)]).ovr :=
  ⟨_, rfl, by decide⟩
theorem witness_OvrIsSticky_cleared :
    let s := { hosted false [.host (.write 4 0x0004 1)] with ovr := true }
    s.busy = false ∧ s.resetPin = false ∧ s.agenda = .host (.write 4 0x0004 1) :: [] ∧
      ∃ t, step s = .next t ∧ t.ovr ≠ s.ovr := ⟨rfl, rfl, rfl, _, rfl, by decide⟩
theorem witness_OvrIsSticky_reset :
    let s := { hosted true [.assertReset] with ovr := true }
    ∃ t, step s = .next t ∧ t.ovr ≠ s.ovr := ⟨_, rfl, by decide⟩

/-- Every offset at which a read while BUSY = 1 is specified, and one at which it is not. -/
theorem witness_BusyReadsAreExactWhereSpecified (off : Nat)
    (h : off ∈ [0x0000, 0x0004, 0x0008, 0x000C, 0x0014, 0x00FC, 0x01C8, 0x03FC, 0x0800, 0x1FFC, 0x3FFC]) :
    let s := hosted true [.host (.read 4 off)]
    s.busy = true ∧ s.resetPin = false ∧ off % 4 = 0 ∧ off < 0x4000 ∧ s.agenda = .host (.read 4 off) :: [] := by
  simp only [List.mem_cons, List.not_mem_nil, or_false] at h
  rcases h with rfl | rfl | rfl | rfl | rfl | rfl | rfl | rfl | rfl | rfl | rfl <;> decide

/-- The reserved ranges at both ends, each read-only register, and that no offset falls under two clauses. -/
theorem witness_ReservedAndReadOnlyOffsets (off : Nat) (h : off ∈ [0x0014, 0x00FC, 0x01C8, 0x03FC, 0x0800, 0x1FFC]) :
    off % 4 = 0 ∧ reservedOffset off ∧ off ≠ 0x0000 ∧ off ≠ 0x0004 ∧ off ≠ 0x000C ∧ off ≠ 0x0010 := by
  simp only [List.mem_cons, List.not_mem_nil, or_false] at h
  simp only [reservedOffset]
  omega
theorem witness_ReservedAndReadOnlyOffsets_states :
    (hosted false [.host (.write 4 0x0014 7)]).busy = false ∧ (hosted false [.host (.write 4 0x0014 7)]).resetPin = false ∧
    (hosted false [.host (.write 4 0x000C 7)]).agenda = .host (.write 4 0x000C 7) :: [] ∧
    (hosted true [.host (.write 4 0x1FFC 7)]).busy = true ∧
    (hosted true [.host (.write 4 0x1FFC 7)]).agenda = .host (.write 4 0x1FFC 7) :: [] ∧
    (hosted false [.host (.read 4 0x0004)]).agenda = .host (.read 4 0x0004) :: [] ∧
    (hosted false [.host (.read 4 0x0000)]).agenda = .host (.read 4 0x0000) :: [] ∧
    (hosted false [.host (.read 4 0x0010)]).agenda = .host (.read 4 0x0010) :: [] := by decide

theorem witness_IdleReadsAreIdempotent :
    let s := hosted false [.host (.read 4 0x3FFC), .host (.read 4 0x3FFC)]
    s.busy = false ∧ s.resetPin = false ∧ 0x3FFC % 4 = 0 ∧ 0x3FFC < 0x4000 ∧
      s.agenda = .host (.read 4 0x3FFC) :: .host (.read 4 0x3FFC) :: [] := by decide

theorem witness_StatusLayout :
    let s := hosted false [.host (.write 4 0x000C 7)]
    let r := hosted false [.host (.read 4 0x000C)]
    s.busy = false ∧ s.resetPin = false ∧ s.agenda = .host (.write 4 0x000C 7) :: [] ∧
      r.busy = false ∧ r.resetPin = false ∧ r.agenda = .host (.read 4 0x000C) :: [] := by decide

theorem witness_ArgRegister :
    let s := hosted false [.host (.write 4 0x0008 0xFFFFFFFF), .host (.read 4 0x0008)]
    s.busy = false ∧ s.resetPin = false ∧
      s.agenda = .host (.write 4 0x0008 0xFFFFFFFF) :: .host (.read 4 0x0008) :: [] := by decide
theorem witness_ArgRegister_commands :
    (∃ t, exec .permute State.reset = .next t) ∧ Instr.permute ≠ .sinit ∧ Instr.permute ≠ .absorb ∧
      Instr.permute ≠ .squeeze := ⟨⟨_, rfl⟩, by decide⟩

/-- The first and the last word of each of the three data windows. -/
theorem witness_LaneWindow (w : Nat) (h : w = 0 ∨ w = 49) :
    let s := hosted false [.host (.read 4 (0x0100 + 4 * w))]
    let t := hosted false [.host (.write 4 (0x0100 + 4 * w) 7)]
    w < 50 ∧ s.busy = false ∧ s.resetPin = false ∧ s.agenda = .host (.read 4 (0x0100 + 4 * w)) :: [] ∧
      t.busy = false ∧ t.resetPin = false ∧ t.agenda = .host (.write 4 (0x0100 + 4 * w) 7) :: [] := by
  rcases h with rfl | rfl <;> decide
theorem witness_BufferWindow (w : Nat) (h : w = 0 ∨ w = 255) :
    let s := hosted false [.host (.read 4 (0x0400 + 4 * w))]
    let t := hosted false [.host (.write 4 (0x0400 + 4 * w) 7)]
    w < 256 ∧ s.busy = false ∧ s.resetPin = false ∧ s.agenda = .host (.read 4 (0x0400 + 4 * w)) :: [] ∧
      t.busy = false ∧ t.resetPin = false ∧ t.agenda = .host (.write 4 (0x0400 + 4 * w) 7) :: [] := by
  rcases h with rfl | rfl <;> decide
theorem witness_PolynomialWindow (p : PReg) (k : Fin 256) (h : (p = 0 ∧ k = 0) ∨ (p = 7 ∧ k = 255)) :
    let s := hosted false [.host (.read 4 (0x2000 + 0x400 * p.val + 4 * k.val))]
    let t := hosted false [.host (.write 4 (0x2000 + 0x400 * p.val + 4 * k.val) 7)]
    s.busy = false ∧ s.resetPin = false ∧ s.agenda = .host (.read 4 (0x2000 + 0x400 * p.val + 4 * k.val)) :: [] ∧
      t.busy = false ∧ t.resetPin = false ∧
      t.agenda = .host (.write 4 (0x2000 + 0x400 * p.val + 4 * k.val) 7) :: [] := by
  rcases h with ⟨rfl, rfl⟩ | ⟨rfl, rfl⟩ <;> decide

/-- A byte, a halfword, a doubleword, a misaligned word; and a supported access. -/
theorem witness_OnlyAlignedWordAccesses (bytes off : Nat)
    (h : (bytes, off) ∈ [(1, 0), (2, 0x0100), (8, 0x0100), (4, 0x0102)]) :
    (bytes ≠ 4 ∨ off % 4 ≠ 0) ∧ (hosted false [.host (.read bytes off)]).agenda = .host (.read bytes off) :: [] ∧
      (hosted false [.host (.write bytes off 7)]).agenda = .host (.write bytes off 7) :: [] := by
  simp only [List.mem_cons, List.not_mem_nil, or_false, Prod.mk.injEq] at h
  rcases h with ⟨rfl, rfl⟩ | ⟨rfl, rfl⟩ | ⟨rfl, rfl⟩ | ⟨rfl, rfl⟩ <;> decide
theorem witness_OnlyAlignedWordAccesses_ok :
    (4 = 4 ∧ 0x3FFC % 4 = 0) ∧ 0x3FFC < 0x4000 ∧
      (hosted false [.host (.read 4 0x3FFC)]).agenda = .host (.read 4 0x3FFC) :: [] ∧
      (hosted false [.host (.write 4 0x3FFC 7)]).agenda = .host (.write 4 0x3FFC 7) :: [] := by decide

/-- The clauses of the step rules at the ends of their ranges. -/
theorem witness_KeccakStepRules : (4 < 5 ∧ 4 < 5 ∧ ((4 : Nat) ≠ 0 ∨ (4 : Nat) ≠ 0)) ∧ 23 < 24 ∧ 6 < 7 ∧
    (62 < 64 ∧ ∀ j < 7, 62 ≠ 2 ^ j - 1) := by decide

theorem witness_PhaseTransitions :
    phaseAllows .absorb (sponge .finalized 168 0 0).phase = false ∧
    phaseAllows .squeeze (sponge .finalized 168 0 0).phase = true ∧
    (sponge .idle 0 0 129).pendArg ≠ 128 ∧ (sponge .idle 0 0 129).pendArg ≠ 256 ∧
    (Instr.padd 0 1 2).destinations ≠ [] := by decide

theorem witness_SinitRule : ((sponge .idle 0 0 128).pendArg = 128 ∨ (sponge .idle 0 0 128).pendArg = 256) ∧
    ((sponge .squeezing 168 5 256).pendArg = 128 ∨ (sponge .squeezing 168 5 256).pendArg = 256) ∧
    (sponge .idle 0 0 384).pendArg ≠ 128 ∧ (sponge .idle 0 0 384).pendArg ≠ 256 := by decide

/-- n = 0 and n = 1024, at the first and the last cursor. -/
theorem witness_AbsorbCompletes (c : BitVec 8) (n : Word) (h : (c = 0 ∧ n = 0) ∨ (c = 135 ∧ n = 1024)) :
    let s := sponge .absorbing 136 c n
    s.SpongeInv ∧ s.phase = .absorbing ∧ s.pendArg.toNat ≤ 1024 := by
  rcases h with ⟨rfl, rfl⟩ | ⟨rfl, rfl⟩ <;> decide

/-- Below the rate and exactly at it: the two clauses. -/
theorem witness_AbsorbWithinBlock (n : Word) (h : n = 167 ∨ n = 168) :
    let s := sponge .absorbing 168 0 n
    s.SpongeInv ∧ s.phase = .absorbing ∧ s.pendArg.toNat ≤ 1024 ∧ s.cursor.toNat + s.pendArg.toNat ≤ s.rate.toNat ∧
      (n = 167 → s.cursor.toNat + s.pendArg.toNat < s.rate.toNat) ∧
      (n = 168 → s.cursor.toNat + s.pendArg.toNat = s.rate.toNat) := by
  rcases h with rfl | rfl <;> decide

/-- S15: "Hello" and ", Dilithium!". -/
theorem witness_AbsorbIsAssociative :
    (sponge .absorbing 136 0 0).phase = .absorbing ∧
    ([0x48, 0x65, 0x6c, 0x6c, 0x6f] : List Byte).length + ([0x2c, 0x20] : List Byte).length ≤ 1024 ∧
    (∀ c ∈ ([[0x48, 0x65], [0x6c]] : List (List Byte)), c.length ≤ 1024) ∧
    (∀ d ∈ ([[0x48], [], [0x65, 0x6c]] : List (List Byte)), d.length ≤ 1024) ∧
    ([[0x48, 0x65], [0x6c]] : List (List Byte)).flatten = ([[0x48], [], [0x65, 0x6c]] : List (List Byte)).flatten := by decide

theorem witness_FinalResult :
    (sponge .absorbing 136 135 0).SpongeInv ∧ (sponge .absorbing 136 135 0).phase = .absorbing ∧
    (sponge .absorbing 168 0 0).SpongeInv ∧ (sponge .absorbing 168 0 0).phase = .absorbing := by decide

theorem witness_SqueezeCompletes (ph : Phase) (n : Word) (h : (ph = .finalized ∧ n = 0) ∨ (ph = .squeezing ∧ n = 1024)) :
    let s := sponge ph 168 0 n
    s.SpongeInv ∧ (s.phase = .finalized ∨ s.phase = .squeezing) ∧ s.pendArg.toNat ≤ 1024 := by
  rcases h with ⟨rfl, rfl⟩ | ⟨rfl, rfl⟩ <;> decide

/-- S12 squeezes the whole rate; one byte less stays in the block. -/
theorem witness_SqueezeWithinBlock (n : Word) (h : n = 167 ∨ n = 168) :
    let s := sponge .finalized 168 0 n
    s.SpongeInv ∧ (s.phase = .finalized ∨ s.phase = .squeezing) ∧ s.pendArg.toNat ≤ 1024 ∧
      s.cursor.toNat + s.pendArg.toNat ≤ s.rate.toNat ∧
      (n = 167 → s.cursor.toNat + s.pendArg.toNat < s.rate.toNat) ∧
      (n = 168 → s.cursor.toNat + s.pendArg.toNat = s.rate.toNat) := by
  rcases h with rfl | rfl <;> decide

/-- P2 of section 6: 16 bytes, then 240 more. -/
theorem witness_SqueezePrefixProperty :
    ((sponge .finalized 168 0 0).phase = .finalized ∨ (sponge .finalized 168 0 0).phase = .squeezing) ∧
    16 ≤ 256 ∧ 256 ≤ 1024 := by decide

theorem witness_XofIsShake : (128 = 128 ∨ 128 = 256) ∧ (256 = 128 ∨ 256 = 256) ∧
    (∀ c ∈ ([[0x61, 0x62, 0x63], []] : List (List Byte)), c.length ≤ 1024) ∧ 1024 ≤ 1024 := by decide

theorem witness_P2rRule : (3 : PReg) = 3 ∧ (0 : PReg) ≠ 7 ∧
    0 ≤ ((mono 0 8380416)[(0 : Fin 256)]).toInt ∧ ((mono 0 8380416)[(0 : Fin 256)]).toInt < 8380417 := by decide +kernel

theorem witness_AliasingIsHarmless : (0 : PReg) ≠ 1 ∧ (2 : PReg) ≠ 3 ∧
    (ringState (mono 1 1) (mono 1 1)).polys[(1 : PReg)] = (ringState (mono 1 1) (mono 1 1)).polys[(0 : PReg)] :=
  ⟨by decide, by decide, rfl⟩

/-- Two registers that differ as words and agree mod Q. -/
theorem witness_RingCommandsCommute : ∀ k : Fin 256,
    let s := ringState (Vector.replicate 256 (-1)) (Vector.replicate 256 5)
    let t := ringState (Vector.replicate 256 8380416) (Vector.replicate 256 8380422)
    s.polys[(0 : PReg)][k].toInt % 8380417 = t.polys[(0 : PReg)][k].toInt % 8380417 ∧
      s.polys[(1 : PReg)][k].toInt % 8380417 = t.polys[(1 : PReg)][k].toInt % 8380417 := by
  intro k
  simp [ringState]

/-- The polynomials 1 and X in the second register. -/
theorem witness_PmulByOneAndByX :
    (∀ k : Fin 256, (ringState (mono 9 4) (mono 0 1)).polys[(1 : PReg)][k].toInt = if k = 0 then 1 else 0) ∧
    (∀ k : Fin 256, (ringState (mono 9 4) (mono 1 1)).polys[(1 : PReg)][k].toInt = if k = 1 then 1 else 0) := by
  have h : ∀ a b : Poly, (ringState a b).polys[(1 : PReg)] = b := fun _ _ => rfl
  constructor <;> intro k <;> rw [h, mono_getElem] <;> split <;> rfl

theorem witness_WritersOfRateAndPolynomials :
    (∃ t, exec (.padd 0 1 2) State.reset = .next t) ∧ Instr.padd 0 1 2 ≠ .sinit ∧
      (7 : PReg) ∉ (Instr.padd 0 1 2).destinations := ⟨⟨_, rfl⟩, by decide⟩

theorem witness_ErrorPriority :
    (pending 0x00000003 2000).agenda = [] ∧ (pending 0x00000003 2000).busy = true ∧
      (pending 0x00000003 2000).resetPin = false := by decide
theorem witness_ErrorPriority_turn :
    let s := { pending 0x00000003 2000 with agenda := [.core, .core] }
    (s.agenda = [] ∨ ∃ rest, s.agenda = .core :: rest) ∧ s.busy = true ∧ s.resetPin = false :=
  ⟨.inr ⟨_, rfl⟩, rfl, rfl⟩

theorem witness_ErrorsChangeErrAndBusyOnly :
    (pending 0x00000003 2000).agenda = [] ∧ (pending 0x00000003 2000).busy = true ∧
      (pending 0x00000003 2000).resetPin = false ∧ ∃ t, step (pending 0x00000003 2000) = .next t ∧ t.err ≠ .ok :=
  ⟨rfl, rfl, rfl, _, rfl, by decide⟩
theorem witness_ErrorsChangeErrAndBusyOnly_turn :
    let s := { pending 0x00000003 2000 with agenda := [.core, .core] }
    s.agenda = .core :: [.core] ∧ s.busy = true ∧ s.resetPin = false ∧ ∃ t, step s = .next t ∧ t.err ≠ .ok :=
  ⟨rfl, rfl, rfl, _, rfl, by decide⟩

theorem witness_HostAccessLeavesSpongeControl :
    (Access.write 4 0x3FFC 7).Ok ∧ (hosted true [.host (.write 4 0x3FFC 7)]).agenda = .host (.write 4 0x3FFC 7) :: [] ∧
      (hosted true [.host (.write 4 0x3FFC 7)]).busy = true := by decide

theorem witness_StepKeepsInvariant :
    (pending 0x00000002 128).Inv ∧ ∃ t, step (pending 0x00000002 128) = .next t ∧ t.phase = .absorbing :=
  ⟨by decide, _, rfl, by decide⟩

theorem witness_ResetValues :
    ∃ t, (hosted true [.assertReset]).agenda = .assertReset :: [] ∧ step (hosted true [.assertReset]) = .next t :=
  ⟨_, rfl, rfl⟩

theorem witness_ResetAbandonsCommand :
    let es : List Event := [.core, .host (.read 4 0x000C), .host (.write 4 0x0004 1)]
    (∀ e ∈ es, e.Ok ∧ e ≠ .releaseReset) ∧
      (hosted true (.assertReset :: es ++ [.releaseReset])).agenda = .assertReset :: es ++ [.releaseReset] := by
  refine ⟨?_, rfl⟩
  simp [Event.Ok, Access.Ok, Config.window]

theorem witness_BusyWindowDoesNotDisturb :
    let as : List Access := [.read 4 0x000C, .write 4 0x0008 9]
    let s := { pending 0x00000001 0 with agenda := as.map Event.host ++ [Event.core] }
    s.busy = true ∧ s.resetPin = false ∧ (∀ a ∈ as, a.Ok) ∧ s.agenda = as.map Event.host ++ [Event.core] := by
  refine ⟨rfl, rfl, ?_, rfl⟩
  simp [Access.Ok, Config.window]

theorem witness_EveryCommandCompletes :
    let s := { pending 0x00000001 0 with
      agenda := [.host (.write 4 0x0008 9), .core, .assertReset, .releaseReset] }
    s.Inv ∧ ∀ e ∈ s.agenda, e.Ok := by
  refine ⟨by decide, ?_⟩
  simp [Event.Ok, Access.Ok, Config.window]

end Sys2Proof.Tests
end

section
/-! SUPPORT. What one event leaves unchanged and what the core's turn and a command keep (R31, R32, R38, R40, R41): the
rules the statements of 10_state.md are assembled from. -/

namespace Sys2Proof.Machine

/-! ### The register words of the window, and a host access as a step -/

@[simp] theorem poke_cmd (s : State) (w : Word) : s.poke 0x0004 w = s.acceptCommand w := by
  simp only [State.poke, regionOf_cmd]

@[simp] theorem poke_arg (s : State) (w : Word) : s.poke 0x0008 w = { s with arg := w } := by
  simp only [State.poke, regionOf_arg]

@[simp] theorem poke_status (s : State) (w : Word) : s.poke 0x000C w = s := by
  simp only [State.poke, regionOf_status]

@[simp] theorem peek_id (s : State) : s.peek 0x0000 = Config.idWord := by
  simp only [State.peek, regionOf_id]

@[simp] theorem peek_arg (s : State) : s.peek 0x0008 = s.arg := by
  simp only [State.peek, regionOf_arg]

@[simp] theorem peek_status (s : State) : s.peek 0x000C = s.statusWord := by
  simp only [State.peek, regionOf_status]

section
variable {s : State} {off : Nat} {rest : List Event} (h1 : off % 4 = 0) (h2 : off < 0x4000) (hr : s.resetPin = false)
include h1 h2 hr

/-- A read while BUSY = 0, as a step (R59). -/
theorem step_read_idle (hb : s.busy = false) (ha : s.agenda = .host (.read 4 off) :: rest) :
    step s = .next { s with agenda := rest, readData := s.peek off } := by
  rw [step_host ha, hostStep_read_idle (s := { s with agenda := rest }) h1 h2 hb hr]
  rfl

/-- A write while BUSY = 0, as a step (R31, R51). -/
theorem step_write_idle {w : Word} (hb : s.busy = false) (ha : s.agenda = .host (.write 4 off w) :: rest) :
    step s = .next (State.poke { s with agenda := rest } off w) := by
  rw [step_host ha, hostStep_write_idle (s := { s with agenda := rest }) h1 h2 hb hr]

/-- A write while BUSY = 1, as a step (R65). -/
theorem step_write_busy {w : Word} (hb : s.busy = true) (ha : s.agenda = .host (.write 4 off w) :: rest) :
    step s = .next { s with agenda := rest, ovr := true } := by
  rw [step_host ha, hostStep_write_busy (s := { s with agenda := rest }) h1 h2 hb hr]

end

/-- An accepted CMD write, as a step (R31). -/
theorem step_cmd_write {s : State} {w : Word} {rest : List Event} (hb : s.busy = false) (hr : s.resetPin = false)
    (ha : s.agenda = .host (.write 4 0x0004 w) :: rest) :
    step s = .next { s with agenda := rest, pendCmd := w, pendArg := s.arg, ovr := false, busy := true } := by
  rw [step_write_idle (by decide) (by decide) hr hb ha, poke_cmd]
  rfl

/-! ### What a host access leaves unchanged -/

/-- A host access that answers a next state is one KSR1 supports (R50, R56, R168). -/
theorem access_ok_of_hostStep {a : Access} {s t : State} (h : hostStep a s = .next t) : a.Ok := by
  have hok : ∀ bytes off, ¬ (!supported bytes off) = true → ¬ off ≥ Config.window →
      bytes = 4 ∧ off % 4 = 0 ∧ off < Config.window := by
    intro bytes off hsup hwin
    have : bytes = 4 ∧ off % 4 = 0 := by simpa [supported] using hsup
    exact ⟨this.1, this.2, Nat.lt_of_not_ge hwin⟩
  cases a <;>
  · simp only [hostStep] at h
    split at h
    · cases h
    split at h
    · cases h
    · exact hok _ _ ‹_› ‹_›

/-- No host write changes ERR, RATE, CURSOR or PHASE, nor the reset input and the events still to come (R33, R38). -/
theorem poke_frame (s : State) (off : Nat) (w : Word) :
    (s.poke off w).err = s.err ∧ (s.poke off w).rate = s.rate ∧ (s.poke off w).cursor = s.cursor ∧
    (s.poke off w).phase = s.phase ∧ (s.poke off w).resetPin = s.resetPin ∧ (s.poke off w).agenda = s.agenda := by
  obtain h | h | h | ⟨_, h⟩ | ⟨_, h⟩ | ⟨_, h⟩ := poke_cases s off w <;> rw [h] <;>
    exact ⟨rfl, rfl, rfl, rfl, rfl, rfl⟩

/-- No host access changes ERR, RATE, CURSOR or PHASE, nor the reset input and the events still to come (R33, R38). -/
theorem hostStep_frame {a : Access} {s t : State} (h : hostStep a s = .next t) :
    t.err = s.err ∧ t.rate = s.rate ∧ t.cursor = s.cursor ∧ t.phase = s.phase ∧ t.resetPin = s.resetPin ∧
    t.agenda = s.agenda := by
  obtain ⟨_, _, rfl⟩ | ⟨_, rfl⟩ | ⟨_, _, off, w, rfl⟩ | rfl := hostStep_cases h
  · exact ⟨rfl, rfl, rfl, rfl, rfl, rfl⟩
  · exact ⟨rfl, rfl, rfl, rfl, rfl, rfl⟩
  · exact poke_frame s off w
  · exact ⟨rfl, rfl, rfl, rfl, rfl, rfl⟩

/-- While BUSY = 1, and under reset, no host access changes BUSY or the pending command (R65, R180). -/
theorem hostStep_pending {a : Access} {s t : State} (h : hostStep a s = .next t)
    (hs : s.busy = true ∨ s.resetPin = true) :
    t.pendCmd = s.pendCmd ∧ t.pendArg = s.pendArg ∧ t.busy = s.busy := by
  obtain ⟨_, _, rfl⟩ | ⟨_, rfl⟩ | ⟨hb, hr, _⟩ | rfl := hostStep_cases h
  · exact ⟨rfl, rfl, rfl⟩
  · exact ⟨rfl, rfl, rfl⟩
  · simp [hb, hr] at hs
  · exact ⟨rfl, rfl, rfl⟩

/-- A host write changes OVR while BUSY = 1, to 1, or as an accepted CMD write, to 0 (R32). -/
theorem mmioWrite_ovr {s : State} {off : Nat} {w : Word} (h : (s.mmioWrite off w).ovr ≠ s.ovr) :
    (s.busy = true ∧ (s.mmioWrite off w).ovr = true) ∨
    (s.busy = false ∧ regionOf off = .cmd ∧ (s.mmioWrite off w).ovr = false) := by
  by_cases hr : s.resetPin = true
  · simp [State.mmioWrite, hr] at h
  rw [Bool.not_eq_true] at hr
  by_cases hb : s.busy = true
  · exact .inl ⟨hb, by rw [mmioWrite_busy s off w hb hr]⟩
  rw [Bool.not_eq_true] at hb
  rw [mmioWrite_idle s off w hb hr] at h ⊢
  refine .inr ⟨hb, ?_⟩
  cases hreg : regionOf off <;> simp [State.poke, hreg] at h ⊢

/-- A host access that changes OVR is a write: while BUSY = 1, or an accepted CMD write (R32). -/
theorem hostStep_ovr {a : Access} {s t : State} (h : hostStep a s = .next t) (hne : t.ovr ≠ s.ovr) :
    ∃ off w, a = .write 4 off w ∧
      ((s.busy = true ∧ t.ovr = true) ∨ (s.busy = false ∧ regionOf off = .cmd ∧ t.ovr = false)) := by
  have hok := access_ok_of_hostStep h
  cases a with
  | read b off =>
    obtain ⟨rfl, h1, h2⟩ := hok
    rw [hostStep_read off s h1 h2] at h
    cases h
    refine absurd ?_ hne
    unfold State.mmioRead
    split
    · rfl
    · split <;> rfl
  | write b off w =>
    obtain ⟨rfl, h1, h2⟩ := hok
    rw [hostStep_write off w s h1 h2] at h
    cases h
    exact ⟨off, w, rfl, mmioWrite_ovr hne⟩

/-! ### What a command and the core's turn leave unchanged -/

@[simp] theorem absorbBytes_phase (s : State) (bs : List Byte) : (s.absorbBytes bs).phase = s.phase := by
  obtain ⟨_, _, _, _, _, h⟩ := absorbBytes_frame bs s
  rw [h]

@[simp] theorem absorbBytes_polys (s : State) (bs : List Byte) : (s.absorbBytes bs).polys = s.polys := by
  obtain ⟨_, _, _, _, _, h⟩ := absorbBytes_frame bs s
  rw [h]

@[simp] theorem squeezeBytes_polys (n : Nat) (s : State) : (s.squeezeBytes n).polys = s.polys := by
  obtain ⟨_, _, _, _, _, _, h, -⟩ := squeezeBytes_frame n s
  rw [h]

theorem exec_sameControl {i : Instr} {s t : State} (h : exec i s = .next t) : Reference.sameControl s t := by
  obtain ⟨u, hu, -, hc⟩ := exec_next i s
  cases h.symm.trans hu
  exact hc

theorem coreStep_sameControl {s t : State} (h : coreStep s = .next t) : Reference.sameControl s t := by
  obtain ⟨u, hu, hc, -⟩ := coreStep_next s
  cases h.symm.trans hu
  exact hc

/-- Only SINIT writes RATE (R22). -/
theorem exec_rate {i : Instr} {s t : State} (h : exec i s = .next t) (hi : i ≠ .sinit) : t.rate = s.rate := by
  obtain ⟨_, _, e⟩ | ⟨_, e⟩ | ⟨rfl, _⟩ | ⟨_, _, _, e⟩ | ⟨_, _, e⟩ | ⟨_, _, _, e⟩ | ⟨_, _, e, _⟩ := exec_cases s i
  case inr.inr.inl => exact absurd rfl hi
  all_goals cases h.symm.trans e
  · rfl
  · rfl
  · exact absorbBytes_rate s _
  · rfl
  · exact squeezeBytes_rate _ s
  · rfl

/-- A command writes no polynomial register but its destinations (R25). -/
theorem exec_polys {i : Instr} {s t : State} (h : exec i s = .next t) {p : PReg} (hp : p ∉ i.destinations) :
    t.polys[p] = s.polys[p] := by
  obtain ⟨_, _, e⟩ | ⟨_, e⟩ | ⟨_, _, _, e⟩ | ⟨_, _, _, e⟩ | ⟨_, _, e⟩ | ⟨_, _, _, e⟩ | ⟨_, _, e, hps⟩ :=
    exec_cases s i
  all_goals cases h.symm.trans e
  · rfl
  · rfl
  · rfl
  · exact congrArg (·[p]) (absorbBytes_polys s _)
  · rfl
  · exact congrArg (·[p]) (squeezeBytes_polys _ s)
  · exact hps p hp

/-- All the core's turn can do: nothing, complete an illegal word, or execute a legal one (R40, R78). -/
theorem coreStep_cases {s t : State} (h : coreStep s = .next t) :
    t = s ∨ t = s.complete .illegal ∨ ∃ i, exec i s = .next t := by
  cases hb : s.busy with
  | false => cases h.symm.trans (coreStep_idle s (.inl hb)); exact .inl rfl
  | true =>
    cases hr : s.resetPin with
    | true => cases h.symm.trans (coreStep_idle s (.inr hr)); exact .inl rfl
    | false =>
      rw [coreStep_busy s hb hr] at h
      obtain ⟨_, _, e⟩ | ⟨i, _, e⟩ := execPending_cases s
      · cases h.symm.trans e
        exact .inr (.inl rfl)
      · exact .inr (.inr ⟨i, e ▸ h⟩)

/-- The core's turn on a pending word that decodes is its command (R40, R78). -/
theorem coreStep_of_decode {s : State} {i : Instr} (hb : s.busy = true) (hr : s.resetPin = false)
    (hd : decode s.pendCmd = .instr i) : coreStep s = exec i s := by
  rw [coreStep_busy s hb hr]
  obtain ⟨_, hd', _⟩ | ⟨j, hd', e⟩ := execPending_cases s
  · cases hd.symm.trans hd'
  · cases hd.symm.trans hd'
    exact e

/-- PERMUTE, FINAL and the ring commands do not depend on the pending argument: what each answers is an update that reads
every register but PEND_ARG and leaves that one (R77). -/
theorem exec_withPendArg (s : State) (v : Word) (i : Instr) (h1 : i ≠ .sinit) (h2 : i ≠ .absorb) (h3 : i ≠ .squeeze) :
    ∃ t, exec i s = .next t ∧ exec i { s with pendArg := v } = .next { t with pendArg := v } := by
  cases i with
  | permute => exact ⟨_, exec_permute s, exec_permute { s with pendArg := v }⟩
  | sinit => exact absurd rfl h1
  | absorb => exact absurd rfl h2
  | final =>
    by_cases hp : s.phase = .absorbing
    · exact ⟨_, exec_final_ok s hp, exec_final_ok { s with pendArg := v } hp⟩
    · exact ⟨_, exec_final_protocol s hp, exec_final_protocol { s with pendArg := v } hp⟩
  | squeeze => exact absurd rfl h3
  | padd d a b => exact ⟨_, exec_padd s d a b, exec_padd { s with pendArg := v } d a b⟩
  | pmul d a b => exact ⟨_, exec_pmul s d a b, exec_pmul { s with pendArg := v } d a b⟩
  | pred d a => exact ⟨_, exec_pred s d a, exec_pred { s with pendArg := v } d a⟩
  | p2r d e a =>
    by_cases hde : d = e
    · subst hde
      exact ⟨_, exec_p2r_same s d a, exec_p2r_same { s with pendArg := v } d a⟩
    · exact ⟨_, exec_p2r s d e a hde, exec_p2r { s with pendArg := v } d e a hde⟩

/-- The core's turn leaves OVR (R32). -/
theorem coreStep_ovr {s t : State} (h : coreStep s = .next t) : t.ovr = s.ovr := by
  obtain ⟨-, hovr, -⟩ := coreStep_sameControl h
  exact hovr

/-- A step that changes OVR is a host write while BUSY = 1, an accepted CMD write, or an edge that asserts reset (R32). -/
theorem step_ovr {s t : State} (h : step s = .next t) (hne : t.ovr ≠ s.ovr) :
    (∃ off w rest, s.busy = true ∧ s.agenda = .host (.write 4 off w) :: rest ∧ t.ovr = true) ∨
    (∃ w rest off, s.busy = false ∧ s.agenda = .host (.write 4 off w) :: rest ∧ regionOf off = .cmd ∧ t.ovr = false) ∨
    (∃ rest, s.agenda = .assertReset :: rest ∧ t.ovr = false) := by
  obtain ⟨_, h⟩ | ⟨rest, _, h⟩ | ⟨a, rest, ha, h⟩ | ⟨rest, ha, rfl⟩ | ⟨rest, _, rfl⟩ := step_cases h
  · exact absurd (coreStep_ovr h) hne
  · exact absurd (coreStep_ovr h) hne
  · obtain ⟨off, w, rfl, ⟨hb, ho⟩ | ⟨hb, hreg, ho⟩⟩ := hostStep_ovr h hne
    · exact .inl ⟨off, w, rest, hb, ha, ho⟩
    · exact .inr (.inl ⟨w, rest, off, hb, ha, hreg, ho⟩)
  · exact .inr (.inr ⟨rest, ha, rfl⟩)
  · exact absurd rfl hne

/-! ### The invariants of R38 -/

theorem variantRate_some {n : Nat} {r : BitVec 8} (h : variantRate n = some r) : r = 136 ∨ r = 168 := by
  unfold variantRate at h
  split at h
  · cases h
    exact .inr rfl
  split at h
  · cases h
    exact .inl rfl
  · cases h

/-- The sponge invariants are about RATE, CURSOR and PHASE alone. -/
theorem State.SpongeInv.congr {s t : State} (h : s.SpongeInv) (hr : t.rate = s.rate) (hc : t.cursor = s.cursor)
    (hp : t.phase = s.phase) : t.SpongeInv := by
  rwa [State.SpongeInv, hr, hc, hp]

/-- The invariants of an open sponge: a variant's rate and a cursor below it. -/
theorem spongeInv_of_open {t : State} (hp : t.phase ≠ .idle) (hr : t.rate = 136 ∨ t.rate = 168)
    (hc : t.cursor.toNat < t.rate.toNat) : t.SpongeInv := by
  have h0 : t.rate ≠ 0 := by
    intro h
    simp [h] at hr
  exact ⟨⟨fun h => absurd h h0, fun h => absurd h hp⟩, fun _ => ⟨hr, hc⟩, fun h => absurd h hp⟩

theorem spongeInv_of_idle {t : State} (hp : t.phase = .idle) (hr : t.rate = 0) (hc : t.cursor = 0) : t.SpongeInv :=
  ⟨⟨fun _ => hp, fun _ => hr⟩, fun h => absurd hp h, fun _ => hc⟩

/-- Every command keeps the sponge invariants (R38): it leaves RATE, CURSOR and PHASE, or opens the sponge at its start,
or moves the cursor round the rate window. -/
theorem exec_spongeInv {i : Instr} {s t : State} (h : exec i s = .next t) (hs : s.SpongeInv) : t.SpongeInv := by
  obtain ⟨-, hopen, -⟩ := id hs
  obtain ⟨_, _, e⟩ | ⟨_, e⟩ | ⟨_, r, hv, e⟩ | ⟨_, hp, _, e⟩ | ⟨_, hp, e⟩ | ⟨_, hp, _, e⟩ | ⟨_, _, e, _⟩ :=
    exec_cases s i
  all_goals cases h.symm.trans e
  · -- an error
    exact hs.congr rfl rfl rfl
  · -- PERMUTE
    exact hs.congr rfl rfl rfl
  · -- SINIT
    have hr := variantRate_some hv
    refine spongeInv_of_open (by simp) hr ?_
    show 0 < r.toNat
    rcases hr with rfl | rfl <;> decide
  · -- ABSORB
    obtain ⟨hr, hc⟩ := hopen (by simp [hp])
    refine spongeInv_of_open ?_ ?_ ?_
    · simp [absorbBytes_phase, hp]
    · simpa [absorbBytes_rate] using hr
    · simp only [complete_cursor, complete_rate, absorbBytes_cursor _ _ hc, absorbBytes_rate]
      exact Nat.mod_lt _ (by omega)
  · -- FINAL
    obtain ⟨hr, hc⟩ := hopen (by simp [hp])
    exact spongeInv_of_open (by simp) hr (Nat.zero_lt_of_lt hc)
  · -- SQUEEZE
    obtain ⟨hr, hc⟩ := hopen (by rcases hp with hp | hp <;> simp [hp])
    refine spongeInv_of_open ?_ ?_ ?_
    · simp
    · simpa [squeezeBytes_rate] using hr
    · simp only [complete_cursor, complete_rate, squeezeBytes_cursor _ _ hc, squeezeBytes_rate]
      exact Nat.mod_lt _ (by omega)
  · -- a ring command
    exact hs.congr rfl rfl rfl

theorem coreStep_inv {s t : State} (h : coreStep s = .next t) (hs : s.Inv) : t.Inv := by
  obtain ⟨hsponge, hreset⟩ := hs
  obtain rfl | rfl | ⟨i, hi⟩ := coreStep_cases h
  · exact ⟨hsponge, hreset⟩
  · exact ⟨hsponge.congr rfl rfl rfl, fun _ => rfl⟩
  · obtain ⟨u, hu, hb, -⟩ := exec_next i s
    cases hi.symm.trans hu
    exact ⟨exec_spongeInv hi hsponge, fun _ => hb⟩

theorem hostStep_inv {a : Access} {s t : State} (h : hostStep a s = .next t) (hs : s.Inv) : t.Inv := by
  obtain ⟨hsponge, hreset⟩ := hs
  obtain ⟨-, hr, hc, hp, hpin, -⟩ := hostStep_frame h
  refine ⟨hsponge.congr hr hc hp, fun ht => ?_⟩
  rw [hpin] at ht
  obtain ⟨-, -, hbusy⟩ := hostStep_pending h (.inr ht)
  rw [hbusy, hreset ht]

/-- An edge that asserts reset brings about the invariants, whatever was before it (R37, R180). -/
theorem assertReset_inv (s : State) : s.assertReset.Inv := ⟨spongeInv_of_idle rfl rfl rfl, fun _ => rfl⟩

theorem releaseReset_inv {s : State} (hs : s.Inv) : s.releaseReset.Inv :=
  ⟨hs.1.congr rfl rfl rfl, fun h => by simp at h⟩

/-- Every step keeps the invariants; the events still to come are no part of them (R38). -/
theorem step_inv {s t : State} (hs : s.Inv) (h : step s = .next t) : t.Inv := by
  obtain ⟨_, h⟩ | ⟨rest, _, h⟩ | ⟨a, rest, _, h⟩ | ⟨rest, _, rfl⟩ | ⟨rest, _, rfl⟩ := step_cases h
  · exact coreStep_inv h hs
  · exact coreStep_inv (s := { s with agenda := rest }) h hs
  · exact hostStep_inv (s := { s with agenda := rest }) h hs
  · exact assertReset_inv _
  · exact releaseReset_inv (s := { s with agenda := rest }) hs

/-! ### Whole runs -/

theorem runSteps_one {s t : State} (h : step s = .next t) : runSteps 1 s = .next t := by
  rw [runSteps_succ 0 h, runSteps_zero]

theorem runSteps_two {s t u : State} (h : step s = .next t) (h' : step t = .next u) : runSteps 2 s = .next u := by
  rw [runSteps_succ 1 h, runSteps_one h']

/-- With nothing on the agenda the core's turn ends with BUSY = 0, and the agenda stays empty (R40). -/
theorem step_nil_completes {s : State} (hs : s.ResetInv) (ha : s.agenda = []) :
    ∃ t, step s = .next t ∧ t.busy = false ∧ t.agenda = [] := by
  obtain ⟨t, h, ⟨_, _, _, _, _, hag, _⟩, hdone, hidle⟩ := coreStep_next s
  refine ⟨t, (step_nil s ha).trans h, ?_, hag.trans ha⟩
  cases hr : s.resetPin with
  | false => exact hdone hr
  | true =>
    have hb := hs hr
    rw [hidle hb, hb]

/-- The events of the agenda happen one by one, and the core's turn after the last one completes what is pending (R41). -/
theorem run_completes (es : List Event) (s : State) (ha : s.agenda = es) (hs : s.Inv) (hes : ∀ e ∈ es, e.Ok) :
    ∃ t, runSteps (es.length + 1) s = .next t ∧ t.busy = false ∧ t.agenda = [] := by
  induction es generalizing s with
  | nil =>
    obtain ⟨t, h, hb, hag⟩ := step_nil_completes hs.2 ha
    exact ⟨t, runSteps_one h, hb, hag⟩
  | cons e es ih =>
    obtain ⟨t, h, hag⟩ := step_event ha (hes e (by simp))
    rw [List.length_cons, runSteps_succ _ h]
    exact ih t hag (step_inv hs h) fun e' he' => hes e' (by simp [he'])

/-! ### Reset -/

/-- The values of R37's table in a state that a reset at draw `n` leaves, whatever the reset input, the agenda and the last
answer of a read are. -/
theorem resetAt_values {n : Nat} {t : State} {pin : Bool} {es : List Event} {v : Word}
    (ht : t = { State.resetAt n with resetPin := pin, agenda := es, readData := v }) :
    (∀ i : Fin 25, t.lanes[i] = 0) ∧ t.rate = 0 ∧ t.cursor = 0 ∧ t.phase = .idle ∧ t.busy = false ∧ t.ovr = false ∧
    t.err = .ok ∧ t.arg = 0 ∧ t.statusWord = 0 ∧ t.peek 0x0000 = Config.idWord := by
  subst ht
  refine ⟨fun i => ?_, rfl, rfl, rfl, rfl, rfl, rfl, rfl, ?_, peek_id _⟩
  · simp [State.resetAt]
  · show statusOf false false 0 0 0 = 0
    decide

/-! ### The fields of STATUS -/

theorem statusWord_fields (s : State) :
    s.statusWord.getLsbD 0 = s.busy ∧ s.statusWord.getLsbD 1 = s.ovr ∧ s.statusWord.extractLsb' 2 2 = 0 ∧
    s.statusWord.extractLsb' 4 4 = s.err.code ∧ s.statusWord.extractLsb' 8 2 = s.phase.code ∧
    s.statusWord.extractLsb' 10 6 = 0 ∧ s.statusWord.extractLsb' 16 8 = s.cursor ∧
    s.statusWord.extractLsb' 24 8 = 0 :=
  ⟨statusOf_busy .., statusOf_ovr .., statusOf_fields ..⟩

end Sys2Proof.Machine
end

section
/-! The statements of 10_state.md, settled. -/

namespace Sys2Proof.Machine

/-- Settles O49: `step_inv`, by what each kind of step can do. -/
theorem stepKeepsInvariant : Obligations.StepKeepsInvariant := fun _ _ => step_inv

/-- Settles O11: the two writes as steps, and `step_ovr` for the converse. -/
theorem ovrIsSticky : Obligations.OvrIsSticky :=
  ⟨rfl, fun _ _ _ _ hb hr h1 h2 => step_write_busy h1 h2 hr hb,
    fun _ _ _ hb hr ha => ⟨_, step_cmd_write hb hr ha, rfl, rfl⟩, fun _ _ => step_ovr⟩

/-- Settles O16: a write and a read of ARG as steps, what no command writes, and `exec_withPendArg`. -/
theorem argRegister : Obligations.ArgRegister := by
  refine ⟨fun s v rest hb hr ha => ?_, fun i s t h => ?_, fun i s v => exec_withPendArg s v i,
    fun s w rest hb hr ha => ⟨_, step_cmd_write hb hr ha, rfl⟩, rfl⟩
  · have hw := step_write_idle (by decide) (by decide) hr hb ha
    rw [poke_arg] at hw
    have hread := step_read_idle (s := { s with agenda := .host (.read 4 0x0008) :: rest, arg := v }) (off := 0x0008)
      (by decide) (by decide) hr hb rfl
    rw [peek_arg] at hread
    exact runSteps_two hw hread
  · obtain ⟨harg, -⟩ := exec_sameControl h
    exact harg

/-- Settles O45, by what each command writes. -/
theorem writersOfRateAndPolynomials : Obligations.WritersOfRateAndPolynomials :=
  fun _ _ _ h => ⟨exec_rate h, fun _ => exec_polys h⟩

/-- Settles O48: a supported access answers, and its frame. -/
theorem hostAccessLeavesSpongeControl : Obligations.HostAccessLeavesSpongeControl := by
  intro s a rest hok ha
  obtain ⟨t, ht⟩ := hostStep_next a { s with agenda := rest } hok
  obtain ⟨herr, hrate, hcursor, hphase, -, hagenda⟩ := hostStep_frame ht
  refine ⟨t, (step_host ha).trans ht, herr, hrate, hcursor, hphase, hagenda, fun hb => ?_⟩
  obtain ⟨hcmd, harg, hbusy⟩ := hostStep_pending ht (.inl hb)
  exact ⟨hcmd, harg, hbusy.trans hb⟩

/-- Settles O54, by induction on the agenda with the invariants of O49. -/
theorem everyCommandCompletes : Obligations.EveryCommandCompletes :=
  fun s hs hes => run_completes s.agenda s rfl hs hes

/-- Settles O6: the core's turn with the agenda empty or its turn at the head. -/
theorem stepRunsDecodedCommand : Obligations.StepRunsDecodedCommand := fun s _ hb hr hd =>
  ⟨fun ha => (step_nil s ha).trans (coreStep_of_decode hb hr hd),
    fun rest ha => (step_core ha).trans (coreStep_of_decode (s := { s with agenda := rest }) hb hr hd)⟩

/-- Settles O7: with BUSY = 0 the core has no step. -/
theorem idleCoreHasNoStep : Obligations.IdleCoreHasNoStep := fun s hb =>
  ⟨fun ha => (step_nil s ha).trans (coreStep_idle s (.inl hb)),
    fun rest ha => (step_core ha).trans (coreStep_idle { s with agenda := rest } (.inl hb))⟩

/-- Settles O8. -/
theorem cmdWriteIsAccepted : Obligations.CmdWriteIsAccepted := fun _ _ _ => step_cmd_write

/-- Settles O15: a STATUS write and read as steps, and the fields of the word read. -/
theorem statusLayout : Obligations.StatusLayout := by
  refine fun s rest hb hr => ⟨fun w ha => ?_, fun ha => ?_⟩
  · rw [step_write_idle (by decide) (by decide) hr hb ha, poke_status]
  · obtain ⟨hbusy, hovr, hr2, herr, hphase, hr10, hcursor, hr24⟩ := statusWord_fields s
    refine ⟨s.statusWord, ?_, hbusy, hovr, hr2, ?_, ?_, hr10, hcursor, hr24⟩
    · rw [step_read_idle (by decide) (by decide) hr hb ha, peek_status]
    · rw [herr]; cases s.err <;> rfl
    · rw [hphase]; cases s.phase <;> rfl

/-- Settles O50: reset leaves the sponge closed and no command in flight. -/
theorem resetHasInvariant : Obligations.ResetHasInvariant := ⟨spongeInv_of_idle rfl rfl rfl, fun _ => rfl⟩

/-- Settles O51: power-on and an edge of the reset input both leave the reset at some draw. -/
theorem resetValues : Obligations.ResetValues := by
  rintro s t (rfl | ⟨rest, ha, h⟩)
  · exact resetAt_values (n := 0) rfl
  · rw [step_cons s _ rest ha] at h
    cases h
    exact resetAt_values (n := s.draws) rfl

end Sys2Proof.Machine
end

section
/-! SUPPORT. The register window word by word (R51 to R58), host accesses as single steps (R56, R66), and the
core's turn after host accesses: the rules the statements of 20_memory.md are assembled from. -/

namespace Sys2Proof.Machine

open Sys2Proof.Reference

/-! ### What a word of the window reads, and what a write of it leaves -/

@[simp] theorem peek_cmd (s : State) : s.peek 0x0004 = 0 := by
  simp only [State.peek, regionOf_cmd]

@[simp] theorem peek_rate (s : State) : s.peek 0x0010 = s.rate.setWidth 32 := by
  simp only [State.peek, regionOf_rate]

@[simp] theorem poke_id (s : State) (w : Word) : s.poke 0x0000 w = s := by
  simp only [State.poke, regionOf_id]

@[simp] theorem poke_rate (s : State) (w : Word) : s.poke 0x0010 w = s := by
  simp only [State.poke, regionOf_rate]

theorem reservedOffset_lt {off : Nat} (h : reservedOffset off) : off < 0x4000 := by
  simp only [reservedOffset] at h
  omega

theorem peek_reserved (s : State) {off : Nat} (h : reservedOffset off) : s.peek off = 0 := by
  simp only [State.peek, regionOf_reserved off h]

theorem poke_reserved (s : State) {off : Nat} (h : reservedOffset off) (w : Word) : s.poke off w = s := by
  simp only [State.poke, regionOf_reserved off h]

/-- The offset of a word of each data window lies in that word (R52 to R54). -/
theorem regionOf_lane_word {w : Nat} (hw : w < 50) : regionOf (0x0100 + 4 * w) = .lane w :=
  regionOf_lane w 0 hw (by decide)

theorem regionOf_iobuf_word {w : Nat} (hw : w < 256) : regionOf (0x0400 + 4 * w) = .iobuf w :=
  regionOf_iobuf w 0 hw (by decide)

theorem regionOf_poly_word (p : PReg) (k : Fin 256) : regionOf (0x2000 + 0x400 * p.val + 4 * k.val) = .poly p k :=
  regionOf_poly p k 0 (by decide)

section
variable (s : State) {off w : Nat} {p : PReg} {k : Fin 256}

theorem peek_of_lane (h : regionOf off = .lane w) : s.peek off = laneWord s.lanes w := by
  simp only [State.peek, h]

theorem poke_of_lane (h : regionOf off = .lane w) (x : Word) :
    s.poke off x = { s with lanes := setLaneWord s.lanes w x } := by
  simp only [State.poke, h]

theorem peek_of_iobuf (h : regionOf off = .iobuf w) : s.peek off = iobWord s.iob w := by
  simp only [State.peek, h]

theorem poke_of_iobuf (h : regionOf off = .iobuf w) (x : Word) :
    s.poke off x = { s with iob := setIobWord s.iob w x } := by
  simp only [State.poke, h]

theorem peek_of_poly (h : regionOf off = .poly p k) : s.peek off = s.polys[p][k] := by
  simp only [State.peek, h]

theorem poke_of_poly (h : regionOf off = .poly p k) (x : Word) : s.poke off x = s.setPolyWord p k x := by
  simp only [State.poke, h]

end

/-! ### The bytes of the three data windows (R52 to R55) -/

theorem windowByte_lane (s : State) {i : Nat} (hi : i < 200) : s.windowByte (0x0100 + i) = stateByte s.lanes i := by
  have hr : regionOf (0x0100 + i) = .lane (i / 4) := regionOf_eq (by simp only [Region.offsets]; omega)
  rw [State.windowByte, peek_of_lane s hr, wordByte_laneWord _ _ _ (by omega)]
  congr 1; omega

theorem windowByte_iobuf (s : State) {k : Nat} (hk : k < 1024) : s.windowByte (0x0400 + k) = s.iob[k] := by
  have hr : regionOf (0x0400 + k) = .iobuf (k / 4) := regionOf_eq (by simp only [Region.offsets]; omega)
  rw [State.windowByte, peek_of_iobuf s hr, wordByte_iobWord _ _ _ (by omega), ← getD_of_lt s.iob k 0 hk]
  congr 1; omega

theorem windowByte_poly (s : State) (p : PReg) (k : Fin 256) {j : Nat} (hj : j < 4) :
    s.windowByte (0x2000 + 0x400 * p.val + 4 * k.val + j) = wordByte s.polys[p][k] j := by
  rw [State.windowByte, peek_of_poly s (regionOf_poly p k j hj)]
  congr 1; omega

/-! ### Words as bytes, and a written word read back -/

/-- A bus word is its bytes, the highest first (R55 b). -/
theorem word_eq_append_wordBytes (w : Word) : w = wordByte w 3 ++ wordByte w 2 ++ wordByte w 1 ++ wordByte w 0 := by
  simp only [wordByte]
  rw [BitVec.extractLsb'_append_extractLsb'_eq_extractLsb' (by decide : 8 * 3 = 8 * 2 + 8),
    BitVec.extractLsb'_append_extractLsb'_eq_extractLsb' (by decide : 8 * 2 = 8 * 1 + 8),
    BitVec.extractLsb'_append_extractLsb'_eq_extractLsb' (by decide : 8 * 1 = 8 * 0 + 8)]
  exact BitVec.extractLsb'_eq_self.symm

/-- A word of the lane window is four state bytes (R52). -/
theorem laneWord_eq_append_stateBytes (A : Lanes) (w : Nat) : laneWord A w =
    stateByte A (4 * w + 3) ++ stateByte A (4 * w + 2) ++ stateByte A (4 * w + 1) ++ stateByte A (4 * w) := by
  have hb := word_eq_append_wordBytes (laneWord A w)
  rwa [wordByte_laneWord A w 3 (by decide), wordByte_laneWord A w 2 (by decide), wordByte_laneWord A w 1 (by decide),
    wordByte_laneWord A w 0 (by decide)] at hb

/-- A word of the lane window is half a lane (R52). -/
theorem laneWord_eq_extractLsb' (A : Lanes) {w : Nat} (hw : w < 50) :
    laneWord A w = (A[w / 2]).extractLsb' (32 * (w % 2)) 32 := by
  rw [laneWord, getD_of_lt]

/-- A written word of the lane window is read back (R52). -/
theorem laneWord_setLaneWord (A : Lanes) {w : Nat} (x : Word) (hw : w < 50) : laneWord (setLaneWord A w x) w = x := by
  apply word_ext_bytes
  intro j hj
  rw [wordByte_laneWord _ _ _ hj, stateByte_setLaneWord _ _ _ _ hw, if_pos (by omega)]
  congr 1; omega

/-- A word of the buffer window is four buffer bytes (R53). -/
theorem iobWord_eq_append (iob : Vector Byte 1024) {w : Nat} (hw : w < 256) :
    iobWord iob w = iob[4 * w + 3] ++ iob[4 * w + 2] ++ iob[4 * w + 1] ++ iob[4 * w] := by
  simp only [iobWord, getD_of_lt iob (4 * w + 3) 0 (by omega), getD_of_lt iob (4 * w + 2) 0 (by omega),
    getD_of_lt iob (4 * w + 1) 0 (by omega), getD_of_lt iob (4 * w) 0 (by omega)]

/-- A write of a word of the buffer window, byte by byte (R53). -/
theorem setIobWord_getElem (iob : Vector Byte 1024) (w : Nat) (x : Word) {k : Nat} (hk : k < 1024) :
    (setIobWord iob w x)[k] = if k / 4 = w then wordByte x (k % 4) else iob[k] := by
  rw [← getD_of_lt _ _ 0 hk, getD_setIobWord _ _ _ _ hk, getD_of_lt _ _ _ hk]

/-- A write of a coefficient word, coefficient by coefficient (R54). -/
theorem setPolyWord_polys_getElem (s : State) (p q : PReg) (k j : Fin 256) (x : Word) :
    (s.setPolyWord p k x).polys[q][j] = if q = p ∧ j = k then x else s.polys[q][j] := by
  have hreg := congrArg (·[j]) (setPoly_polys_getElem s p q (s.polys[p].set k.val x))
  refine hreg.trans ?_
  by_cases hq : q = p
  · subst hq
    simp [Vector.getElem_set, Fin.ext_iff, eq_comm]
  · simp [hq]

/-! ### A host access as a step -/

/-- An access that is not 32 bits wide or not word-aligned is refused (R56, R168). -/
theorem hostStep_unsupported {bytes off : Nat} (h : bytes ≠ 4 ∨ off % 4 ≠ 0) (s : State) :
    hostStep (.read bytes off) s = .refused .unsupportedAccess ∧
    ∀ w, hostStep (.write bytes off w) s = .refused .unsupportedAccess := by
  have hsup : supported bytes off = false := by
    simpa [supported, imp_iff_not_or] using h
  simp [hostStep, hsup]

/-- A read while BUSY = 1, as a step (R66). -/
theorem step_read_busy {s : State} {off : Nat} {rest : List Event} (h1 : off % 4 = 0) (h2 : off < 0x4000)
    (hr : s.resetPin = false) (hb : s.busy = true) (ha : s.agenda = .host (.read 4 off) :: rest) :
    step s = .next { s with agenda := rest, readData := s.busyPeek off (Config.freeWord s.draws),
                            draws := s.draws + 1 } := by
  rw [step_host ha, hostStep_read_busy (s := { s with agenda := rest }) h1 h2 hb hr]
  rfl

/-- The words of a read while BUSY = 1 that the free word does not enter (R66). -/
theorem busyPeek_exact (s : State) (f : Word) :
    s.busyPeek 0x0000 f = Config.idWord ∧ s.busyPeek 0x0004 f = 0 ∧ s.busyPeek 0x0008 f = s.arg ∧
    s.busyPeek 0x000C f = s.busyStatusWord f ∧ ∀ off, reservedOffset off → s.busyPeek off f = 0 := by
  simp only [State.busyPeek, regionOf_id, regionOf_cmd, regionOf_arg, regionOf_status, true_and]
  intro off h
  rw [regionOf_reserved off h]

/-- The exact bits of STATUS while BUSY = 1 (R66). -/
theorem busyStatusWord_exact (s : State) (f : Word) :
    (s.busyStatusWord f).getLsbD 0 = s.busy ∧ (s.busyStatusWord f).getLsbD 1 = s.ovr ∧
    (s.busyStatusWord f).extractLsb' 2 2 = 0 ∧ (s.busyStatusWord f).extractLsb' 10 6 = 0 ∧
    (s.busyStatusWord f).extractLsb' 24 8 = 0 := by
  obtain ⟨hr2, -, -, hr10, -, hr24⟩ :=
    statusOf_fields s.busy s.ovr (f.extractLsb' 4 4) (f.extractLsb' 8 2) (f.extractLsb' 16 8)
  exact ⟨statusOf_busy .., statusOf_ovr .., hr2, hr10, hr24⟩

/-! ### Host accesses while a command is in flight -/

/-- A host access while BUSY = 1 leaves all that the core's turn reads (R65, R66, R77). -/
theorem hostStep_sameArch {a : Access} {s t : State} (h : hostStep a s = .next t) (hb : s.busy = true) :
    sameArch t s := by
  obtain ⟨_, _, rfl⟩ | ⟨_, rfl⟩ | ⟨hb', _⟩ | rfl := hostStep_cases h
  · exact sameArch.refl s
  · exact sameArch.refl s
  · simp [hb] at hb'
  · exact sameArch.refl t

/-- Host accesses while BUSY = 1, one after another: they leave all that the core's turn reads, and the events after
them. -/
theorem run_busy_accesses (as : List Access) (es : List Event) (k : Nat) (s : State) (hb : s.busy = true)
    (hr : s.resetPin = false) (has : ∀ a ∈ as, a.Ok) (ha : s.agenda = as.map .host ++ es) :
    ∃ v, runSteps (as.length + k) s = runSteps k v ∧ sameArch v s ∧ v.resetPin = false ∧ v.agenda = es := by
  induction as generalizing s with
  | nil => exact ⟨s, by simp, .refl s, hr, ha⟩
  | cons a as ih =>
    obtain ⟨t, ht⟩ := hostStep_next a { s with agenda := as.map .host ++ es } (has a (by simp))
    have hstep : step s = .next t := (step_host ha).trans ht
    obtain ⟨-, -, -, -, hpin, hagenda⟩ := hostStep_frame ht
    obtain ⟨-, -, hbusy⟩ := hostStep_pending ht (.inl hb)
    have hsame : sameArch t s := hostStep_sameArch (s := { s with agenda := as.map .host ++ es }) ht hb
    obtain ⟨v, hrun, hv, hvr, hva⟩ := ih t (hbusy.trans hb) (hpin.trans hr)
      (fun b hmem => has b (by simp [hmem])) hagenda
    refine ⟨v, ?_, hv.trans hsame, hvr, hva⟩
    rw [List.length_cons, show as.length + 1 + k = as.length + k + 1 by omega, runSteps_succ _ hstep, hrun]

/-- The core's turn depends on nothing but what `sameArch` compares (R40, R77, R190). -/
theorem coreStep_congr {s t : State} (h : sameArch s t) (hb : t.busy = true) (hs : s.resetPin = false)
    (ht : t.resetPin = false) : ∃ s' t', coreStep s = .next s' ∧ coreStep t = .next t' ∧ sameArch s' t' := by
  obtain ⟨-, -, -, -, -, -, -, hbusy, -, hcmd, -⟩ := id h
  rw [coreStep_busy s (hbusy.trans hb) hs, coreStep_busy t hb ht, execPending, execPending, hcmd]
  cases decode t.pendCmd with
  | reject r => exact ⟨_, _, rfl, rfl, h.complete .illegal⟩
  | instr i => exact exec_congr i h

end Sys2Proof.Machine
end

section
/-! The statements of 20_memory.md, settled. -/

namespace Sys2Proof.Machine

open Sys2Proof.Reference

/-- Settles O20, by the byte of each data window. -/
theorem windowByteOrder : Obligations.WindowByteOrder := fun s =>
  ⟨fun _ => windowByte_lane s, fun _ => windowByte_iobuf s, fun p k _ => windowByte_poly s p k⟩

/-- Settles O17: the lane word as half a lane and as four bytes, and a written word byte by byte. -/
theorem laneWindow : Obligations.LaneWindow := by
  refine fun s w x rest hw hb hr => ⟨fun _ => windowByte_lane s, fun ha => ?_, fun ha => ?_⟩
  · refine ⟨laneWord s.lanes w, ?_, laneWord_eq_extractLsb' _ hw, laneWord_eq_append_stateBytes _ _⟩
    rw [step_read_idle (by omega) (by omega) hr hb ha, peek_of_lane s (regionOf_lane_word hw)]
  · refine ⟨setLaneWord s.lanes w x, ?_, ?_, fun i _ => stateByte_setLaneWord _ _ _ _ hw⟩
    · rw [step_write_idle (by omega) (by omega) hr hb ha, poke_of_lane _ (regionOf_lane_word hw)]
    · rw [← laneWord_eq_extractLsb' _ hw, laneWord_setLaneWord _ _ hw]

/-- Settles O53: the accesses leave all that the core's turn reads, and the turn depends on nothing else. -/
theorem busyWindowDoesNotDisturb : Obligations.BusyWindowDoesNotDisturb := by
  intro s as hb hr has ha
  obtain ⟨v, hrun, hv, hvr, hva⟩ := run_busy_accesses as [.core] 1 s hb hr has ha
  obtain ⟨t, u, ht, hu, htu⟩ :=
    coreStep_congr (s := { v with agenda := [] }) (t := { s with agenda := [] }) hv hb hvr hr
  obtain ⟨u', hu', -, hdone, -⟩ := coreStep_next { s with agenda := [] }
  cases hu.symm.trans hu'
  have hub : u.busy = false := hdone hr
  obtain ⟨hlanes, hrate, hcursor, hphase, hpolys, hiob, harg, hbusy, herr, hcmd, hparg⟩ := htu
  exact ⟨t, u, hrun.trans (runSteps_one ((step_core hva).trans ht)), runSteps_one ((step_core rfl).trans hu),
    hlanes, hrate, hcursor, hphase, hpolys, hiob, harg, herr, hbusy.trans hub, hub, hcmd, hparg⟩

/-- Settles O10: a write while BUSY = 1 as a step. -/
theorem busyWriteSetsOvrOnly : Obligations.BusyWriteSetsOvrOnly := fun _ _ _ _ hb hr h1 h2 =>
  step_write_busy h1 h2 hr hb

/-- Settles O12: a read while BUSY = 1 as a step, and the words the free word does not enter. -/
theorem busyReadsAreExactWhereSpecified : Obligations.BusyReadsAreExactWhereSpecified := by
  intro s off rest hb hr h1 h2 ha
  obtain ⟨hid, hcmd, harg, hstatus, hres⟩ := busyPeek_exact s (Config.freeWord s.draws)
  refine ⟨_, _, step_read_busy h1 h2 hr hb ha, ?_, ?_, ?_, ?_⟩
  · rintro rfl; exact hid
  · rintro rfl; exact harg
  · rintro (rfl | h)
    · exact hcmd
    · exact hres off h
  · rintro rfl
    rw [hstatus, ← hb]
    exact busyStatusWord_exact s _

/-- Settles O13: each access as a step, and what its word reads or its write leaves. -/
theorem reservedAndReadOnlyOffsets : Obligations.ReservedAndReadOnlyOffsets := by
  intro s off w rest hr h1
  refine ⟨fun hb hoff ha => ?_, fun hb hres ha => step_write_busy h1 (reservedOffset_lt hres) hr hb ha,
    fun hb hoff ha => ?_, fun hb hoff ha => ?_, fun hb hoff ha => ?_⟩
  · obtain hres | rfl | rfl | rfl := hoff
    · rw [step_write_idle h1 (reservedOffset_lt hres) hr hb ha, poke_reserved _ hres]
    · rw [step_write_idle h1 (by decide) hr hb ha, poke_id]
    · rw [step_write_idle h1 (by decide) hr hb ha, poke_status]
    · rw [step_write_idle h1 (by decide) hr hb ha, poke_rate]
  · obtain hres | rfl := hoff
    · rw [step_read_idle h1 (reservedOffset_lt hres) hr hb ha, peek_reserved s hres]
    · rw [step_read_idle h1 (by decide) hr hb ha, peek_cmd]
  · subst hoff
    rw [step_read_idle h1 (by decide) hr hb ha, peek_id]
  · subst hoff
    rw [step_read_idle h1 (by decide) hr hb ha, peek_rate]

/-- Settles O14: a read while BUSY = 0 writes no register, so the second one returns the same word. -/
theorem idleReadsAreIdempotent : Obligations.IdleReadsAreIdempotent := by
  intro s off rest hb hr h1 h2 ha
  have hfirst := step_read_idle h1 h2 hr hb ha
  have hsecond := step_read_idle h1 h2 (rest := rest)
    (s := { s with agenda := .host (.read 4 off) :: rest, readData := s.peek off }) hr hb rfl
  exact ⟨s.peek off, hfirst, runSteps_two hfirst hsecond⟩

/-- Settles O18: the buffer word as four bytes, and a written word byte by byte. -/
theorem bufferWindow : Obligations.BufferWindow := by
  refine fun s w x rest hw hb hr => ⟨fun ha => ?_, fun ha => ⟨setIobWord s.iob w x, ?_, fun k hk => ?_⟩⟩
  · rw [step_read_idle (by omega) (by omega) hr hb ha, peek_of_iobuf s (regionOf_iobuf_word hw),
      iobWord_eq_append _ hw]
  · rw [step_write_idle (by omega) (by omega) hr hb ha, poke_of_iobuf _ (regionOf_iobuf_word hw)]
  · exact setIobWord_getElem _ _ _ hk

/-- Settles O19: the coefficient's word, and a written word coefficient by coefficient. -/
theorem polynomialWindow : Obligations.PolynomialWindow := by
  refine fun s p k x rest hb hr => ⟨fun ha => ?_, fun ha => ⟨(s.setPolyWord p k x).polys, ?_, fun q j => ?_⟩⟩
  · rw [step_read_idle (by omega) (by omega) hr hb ha, peek_of_poly s (regionOf_poly_word p k)]
  · rw [step_write_idle (by omega) (by omega) hr hb ha, poke_of_poly _ (regionOf_poly_word p k)]
    rfl
  · exact setPolyWord_polys_getElem s p q k j x

/-- Settles O21: an unsupported access is refused, a supported one in the window answers. -/
theorem onlyAlignedWordAccesses : Obligations.OnlyAlignedWordAccesses := by
  intro s bytes off w rest
  refine ⟨fun hbad => ?_, fun ⟨hbytes, h1⟩ h2 => ⟨fun ha => ?_, fun ha => ?_⟩⟩
  · obtain ⟨hread, hwrite⟩ := hostStep_unsupported hbad { s with agenda := rest }
    exact ⟨fun ha => (step_host ha).trans hread, fun ha => (step_host ha).trans (hwrite w)⟩
  · rw [step_host ha]
    exact hostStep_next _ _ ⟨hbytes, h1, h2⟩
  · rw [step_host ha]
    exact hostStep_next _ _ ⟨hbytes, h1, h2⟩

end Sys2Proof.Machine
end

section
/-! SUPPORT. The command word by its fields (R70, R79): a word is its six fields, what each field of a command's word
holds, and the decoder as a condition on the fields. The statements of 30_encoding.md rest on `decode_eq_instr_iff`. -/

namespace Sys2Proof

/-! ### The fields of a word -/

/-- A command word is its six fields, the highest first (R70). -/
theorem word_eq_append_fields (w : Word) :
    w = w.extractLsb' 20 12 ++ w.extractLsb' 17 3 ++ w.extractLsb' 14 3 ++ w.extractLsb' 11 3 ++ w.extractLsb' 8 3 ++
      w.extractLsb' 0 8 := by
  rw [BitVec.extractLsb'_append_extractLsb'_eq_extractLsb' (by decide : 20 = 17 + 3),
    BitVec.extractLsb'_append_extractLsb'_eq_extractLsb' (by decide : 17 = 14 + 3),
    BitVec.extractLsb'_append_extractLsb'_eq_extractLsb' (by decide : 14 = 11 + 3),
    BitVec.extractLsb'_append_extractLsb'_eq_extractLsb' (by decide : 11 = 8 + 3),
    BitVec.extractLsb'_append_extractLsb'_eq_extractLsb' (by decide : 8 = 0 + 8)]
  exact BitVec.extractLsb'_eq_self.symm

/-- Words with equal fields are equal (R70). -/
theorem word_eq_iff_fields {v w : Word} : v = w ↔
    v.extractLsb' 20 12 = w.extractLsb' 20 12 ∧ v.extractLsb' 0 8 = w.extractLsb' 0 8 ∧
    v.extractLsb' 8 3 = w.extractLsb' 8 3 ∧ v.extractLsb' 11 3 = w.extractLsb' 11 3 ∧
    v.extractLsb' 14 3 = w.extractLsb' 14 3 ∧ v.extractLsb' 17 3 = w.extractLsb' 17 3 := by
  refine ⟨fun h => by simp [h], fun ⟨hrsv, hop, hd, ha, hb, he⟩ => ?_⟩
  rw [word_eq_append_fields v, word_eq_append_fields w, hrsv, he, hb, ha, hd, hop]

/-- A register field as bits of the word (R71). -/
theorem regField_eq_iff {w : Word} {lo : Nat} {r : PReg} :
    regField w lo = r ↔ w.extractLsb' lo 3 = BitVec.ofFin (w := 3) r :=
  ⟨fun h => congrArg (BitVec.ofFin (w := 3)) h, fun h => congrArg BitVec.toFin h⟩

/-- A mask with every bit of a field set keeps the field. -/
theorem field_and_fullMask :
    (∀ x : BitVec 3, x &&& 7#3 = x) ∧ (∀ x : BitVec 8, x &&& 255#8 = x) ∧ ∀ x : BitVec 12, x &&& 4095#12 = x :=
  ⟨fun _ => BitVec.and_allOnes, fun _ => BitVec.and_allOnes, fun _ => BitVec.and_allOnes⟩

/-! ### What a placed register number puts into each field -/

theorem regBits_getLsbD (r : PReg) (lo : Nat) {j : Nat} (hj : j < 32) :
    (regBits r lo).getLsbD j = (!decide (j < lo) && r.val.testBit (j - lo)) := by
  have : j - lo < 32 := by omega
  simp [regBits, BitVec.getLsbD_ofNat, hj, this, -BitVec.getLsbD_eq_getElem]

/-- A register number placed at a bit stands in the field of that bit (R79). -/
theorem extractLsb'_regBits (r : PReg) {lo : Nat} (h : lo + 3 ≤ 32) :
    (regBits r lo).extractLsb' lo 3 = BitVec.ofFin (w := 3) r := by
  apply BitVec.eq_of_getLsbD_eq
  intro j hj
  rw [BitVec.getLsbD_extractLsb', regBits_getLsbD r lo (by omega), BitVec.getLsbD_ofFin]
  simp [hj]

/-- A register number placed at a bit leaves 0 in a field that it does not meet (R79). -/
theorem extractLsb'_regBits_of_disjoint (r : PReg) {lo start len : Nat} (hlen : start + len ≤ 32)
    (h : start + len ≤ lo ∨ lo + 3 ≤ start) : (regBits r lo).extractLsb' start len = 0 := by
  apply BitVec.eq_of_getLsbD_eq
  intro j hj
  have hout : ¬ start + j < lo → r.val.testBit (start + j - lo) = false := fun hlo =>
    Nat.testBit_lt_two_pow (r.isLt.trans_le (Nat.pow_le_pow_right (by decide : 0 < 2) (by omega : 3 ≤ start + j - lo)))
  rw [BitVec.getLsbD_extractLsb', regBits_getLsbD r lo (by omega)]
  simpa [hj] using hout

/-! ### A command in the fields of a word -/

/-- The register fields that a command's opcode uses hold its operands (R74). -/
def Instr.OperandsIn (w : Word) : Instr → Prop
  | .permute => True
  | .sinit => True
  | .absorb => True
  | .final => True
  | .squeeze => True
  | .padd d a b => dField w = d ∧ aField w = a ∧ bField w = b
  | .pmul d a b => dField w = d ∧ aField w = a ∧ bField w = b
  | .pred d a => dField w = d ∧ aField w = a
  | .p2r d e a => dField w = d ∧ aField w = a ∧ eField w = e

/-- The fields of a word that a command's opcode uses hold the command: RSV zero, its opcode, its operands (R72, R74). -/
def Instr.StandsIn (i : Instr) (w : Word) : Prop := rsvField w = 0 ∧ opField w = i.opcode ∧ i.OperandsIn w

/-- The decoder gives exactly the well-formed commands that stand in the word (R78). -/
theorem decode_eq_instr_iff_standsIn {w : Word} {i : Instr} : decode w = .instr i ↔ i.WellFormed ∧ i.StandsIn w := by
  constructor
  · intro h
    unfold decode decodeOp at h
    split at h
    · cases h
    have hrsv : rsvField w = 0 := Decidable.not_not.mp ‹_›
    -- one goal for each assigned opcode
    repeat' split at h
    all_goals cases h
    all_goals refine ⟨?_, hrsv, ‹_›, ?_⟩
    all_goals simp_all [Instr.OperandsIn, Instr.WellFormed, Instr.wf]
  · rintro ⟨hwf, hrsv, hop, hargs⟩
    cases i <;> simp_all [decode, decodeOp, Instr.opcode, Instr.OperandsIn, Instr.WellFormed, Instr.wf]

/-- A word agrees with a command's encoding on the bits the opcode uses exactly where the command stands in it
(R73, R79). -/
theorem encode_eq_and_usedMask_iff {w : Word} {i : Instr} : encode i = w &&& i.usedMask ↔ i.StandsIn w := by
  obtain ⟨h3, h8, h12⟩ := field_and_fullMask
  rw [eq_comm, word_eq_iff_fields]
  cases i <;>
    simp [encode, Instr.operandBits, Instr.opcode, Instr.usedMask, BitVec.extractLsb'_or, BitVec.extractLsb'_and,
      h3, h8, h12, extractLsb'_regBits, extractLsb'_regBits_of_disjoint, Instr.StandsIn, Instr.OperandsIn, rsvField,
      opField, dField, aField, bField, eField, regField_eq_iff]

/-- The decoder and the encoder on the bits an opcode uses (R73, R78, R79). -/
theorem decode_eq_instr_iff {w : Word} {i : Instr} :
    decode w = .instr i ↔ i.WellFormed ∧ encode i = w &&& i.usedMask := by
  rw [decode_eq_instr_iff_standsIn, encode_eq_and_usedMask_iff]

theorem encodedFields (i : Instr) : Laws.EncodedFields.Statement i := by
  cases i with
  | permute => exact Laws.EncodedFields.permute
  | sinit => exact Laws.EncodedFields.sinit
  | absorb => exact Laws.EncodedFields.absorb
  | final => exact Laws.EncodedFields.final
  | squeeze => exact Laws.EncodedFields.squeeze
  | padd d a b => exact Laws.EncodedFields.padd d a b
  | pmul d a b => exact Laws.EncodedFields.pmul d a b
  | pred d a => exact Laws.EncodedFields.pred d a
  | p2r d e a => exact Laws.EncodedFields.p2r d e a

/-- A command's word has no bit outside those its opcode uses (R79). -/
theorem encode_and_usedMask (i : Instr) : encode i &&& i.usedMask = encode i := by
  obtain ⟨-, -, hunused⟩ := encodedFields i
  calc encode i &&& i.usedMask
      = encode i &&& i.usedMask ||| encode i &&& ~~~ i.usedMask := by rw [hunused]; simp
    _ = encode i := by rw [← BitVec.and_or_distrib_left, BitVec.or_not_self, BitVec.and_allOnes]

/-- A well-formed command's word decodes to it (R79). -/
theorem decode_encode {i : Instr} (hwf : i.WellFormed) : decode (encode i) = .instr i :=
  decode_eq_instr_iff.mpr ⟨hwf, (encode_and_usedMask i).symm⟩

/-- Words that differ outside a mask only agree under it. -/
theorem and_eq_and_of_xor_and_eq_zero {n : Nat} {x y m : BitVec n} (h : (x ^^^ y) &&& m = 0) : x &&& m = y &&& m := by
  apply BitVec.eq_of_getLsbD_eq
  intro j _
  have hj := congrArg (·.getLsbD j) h
  simpa [Bool.and_xor_distrib_right] using hj

end Sys2Proof
end

section
/-! SUPPORT. That no command reads the pending word it came from (R73, R77), and the polls of a WAIT (R80): what the
statements of 30_encoding.md about the machine need. -/

namespace Sys2Proof.Machine

open Sys2Proof.Reference

/-! ### The pending word is no operand -/

section
variable (w : Word)

theorem advanceCursor_withPendCmd (s : State) :
    State.advanceCursor { s with pendCmd := w } = { s.advanceCursor with pendCmd := w } := by
  unfold State.advanceCursor
  split <;> rfl

theorem absorbBytes_withPendCmd (bs : List Byte) (s : State) :
    State.absorbBytes { s with pendCmd := w } bs = { s.absorbBytes bs with pendCmd := w } := by
  induction bs generalizing s with
  | nil => rfl
  | cons b bs ih =>
    have hb : State.absorbByte { s with pendCmd := w } b = { s.absorbByte b with pendCmd := w } :=
      advanceCursor_withPendCmd w { s with lanes := xorStateByte s.lanes s.cursor.toNat b }
    rw [absorbBytes_cons, absorbBytes_cons, hb, ih]

theorem squeezeBytes_withPendCmd (n : Nat) (s : State) :
    State.squeezeBytes { s with pendCmd := w } n = { s.squeezeBytes n with pendCmd := w } := by
  induction n with
  | zero => rfl
  | succ n ih =>
    rw [squeezeBytes_succ, squeezeBytes_succ, ih]
    exact advanceCursor_withPendCmd w { s.squeezeBytes n with iob := _ }

/-- A command's effect does not depend on the pending word, and leaves it (R73). -/
theorem exec_withPendCmd (i : Instr) (s : State) :
    ∃ t, exec i s = .next t ∧ exec i { s with pendCmd := w } = .next { t with pendCmd := w } := by
  cases i with
  | permute => exact ⟨_, exec_permute s, exec_permute { s with pendCmd := w }⟩
  | sinit =>
    cases hv : variantRate s.argument with
    | none => exact ⟨_, exec_sinit_config s hv, exec_sinit_config { s with pendCmd := w } hv⟩
    | some r => exact ⟨_, exec_sinit_ok s hv, exec_sinit_ok { s with pendCmd := w } hv⟩
  | absorb =>
    by_cases hp : s.phase = .absorbing
    · by_cases hn : s.argument ≤ 1024
      · refine ⟨_, exec_absorb_ok s hp hn, (exec_absorb_ok { s with pendCmd := w } hp hn).trans ?_⟩
        rw [absorbBytes_withPendCmd]
        rfl
      · have hn := Nat.lt_of_not_le hn
        exact ⟨_, exec_absorb_range s hp hn, exec_absorb_range { s with pendCmd := w } hp hn⟩
    · exact ⟨_, exec_absorb_protocol s hp, exec_absorb_protocol { s with pendCmd := w } hp⟩
  | final =>
    by_cases hp : s.phase = .absorbing
    · exact ⟨_, exec_final_ok s hp, exec_final_ok { s with pendCmd := w } hp⟩
    · exact ⟨_, exec_final_protocol s hp, exec_final_protocol { s with pendCmd := w } hp⟩
  | squeeze =>
    by_cases hp : s.phase = .finalized ∨ s.phase = .squeezing
    · by_cases hn : s.argument ≤ 1024
      · refine ⟨_, exec_squeeze_ok s hp hn, (exec_squeeze_ok { s with pendCmd := w } hp hn).trans ?_⟩
        rw [squeezeBytes_withPendCmd]
        rfl
      · have hn := Nat.lt_of_not_le hn
        exact ⟨_, exec_squeeze_range s hp hn, exec_squeeze_range { s with pendCmd := w } hp hn⟩
    · obtain ⟨h1, h2⟩ := not_or.mp hp
      exact ⟨_, exec_squeeze_protocol s h1 h2, exec_squeeze_protocol { s with pendCmd := w } h1 h2⟩
  | padd d a b => exact ⟨_, exec_padd s d a b, exec_padd { s with pendCmd := w } d a b⟩
  | pmul d a b => exact ⟨_, exec_pmul s d a b, exec_pmul { s with pendCmd := w } d a b⟩
  | pred d a => exact ⟨_, exec_pred s d a, exec_pred { s with pendCmd := w } d a⟩
  | p2r d e a =>
    by_cases hde : d = e
    · subst hde
      exact ⟨_, exec_p2r_same s d a, exec_p2r_same { s with pendCmd := w } d a⟩
    · exact ⟨_, exec_p2r s d e a hde, exec_p2r { s with pendCmd := w } d e a hde⟩

end

/-! ### A WAIT -/

/-- The polls of a WAIT while BUSY = 1 draw free words and answer the host, and change nothing else (R66, R80). -/
theorem run_busy_polls (polls : Nat) {off : Nat} (h1 : off % 4 = 0) (h2 : off < 0x4000) (k : Nat) (rest : List Event)
    (s : State) (hb : s.busy = true) (hr : s.resetPin = false)
    (ha : s.agenda = List.replicate polls (.host (.read 4 off)) ++ rest) :
    ∃ v n, runSteps (polls + k) s = runSteps k { s with agenda := rest, readData := v, draws := n } := by
  induction polls generalizing s with
  | zero =>
    refine ⟨s.readData, s.draws, ?_⟩
    rw [Nat.zero_add, ← (show s.agenda = rest from ha)]
  | succ polls ih =>
    obtain ⟨v, n, h⟩ := ih
      { s with agenda := List.replicate polls (.host (.read 4 off)) ++ rest,
               readData := s.busyPeek off (Config.freeWord s.draws), draws := s.draws + 1 } hb hr rfl
    refine ⟨v, n, ?_⟩
    rw [show polls + 1 + k = polls + k + 1 by omega]
    exact (runSteps_succ _ (step_read_busy h1 h2 hr hb ha)).trans h

/-- The end of a WAIT: the core's turn completes the pending command, and the read of STATUS after it has bit 0 clear
(R80). -/
theorem run_wait_end {s : State} {i : Instr} {rest : List Event} (hb : s.busy = true) (hr : s.resetPin = false)
    (hd : decode s.pendCmd = .instr i) (ha : s.agenda = .core :: .host (.read 4 0x000C) :: rest) :
    ∃ t v, exec i { s with agenda := .host (.read 4 0x000C) :: rest } = .next t ∧
      runSteps 2 s = .next { t with agenda := rest, readData := v } ∧ v.getLsbD 0 = false := by
  obtain ⟨t, ht, htb, -, -, -, -, hpin, hagenda, -⟩ := exec_next i { s with agenda := .host (.read 4 0x000C) :: rest }
  have hturn : step s = .next t := by
    rw [step_core ha, coreStep_of_decode (s := { s with agenda := .host (.read 4 0x000C) :: rest }) hb hr hd, ht]
  have hread := step_read_idle (by decide) (by decide) (hpin.trans hr) htb hagenda
  refine ⟨t, _, ht, runSteps_two hturn hread, ?_⟩
  obtain ⟨hbusy, -⟩ := statusWord_fields t
  rw [peek_status, hbusy, htb]

/-- The agenda of `DO cmd`: the CMD write, the polls, the core's turn, and the last read of STATUS (R80, R81). -/
theorem hostAgenda_doCommand (polls : Nat) (i : Instr) (rest : List Event) :
    hostAgenda polls (doCommand i) ++ rest = .host (.write 4 0x0004 (encode i)) ::
      (List.replicate polls (.host (.read 4 0x000C)) ++ .core :: .host (.read 4 0x000C) :: rest) := by
  simp [hostAgenda, doCommand, issue, HostStep.events]

/-- `DO cmd` executes the command on the state its CMD write leaves, after polls that drew and answered something, and
ends with a read of STATUS that has bit 0 clear (R80, R81). -/
theorem run_doCommand {s : State} {i : Instr} {polls : Nat} {rest : List Event} (hwf : i.WellFormed)
    (hb : s.busy = false) (hr : s.resetPin = false) (ha : s.agenda = hostAgenda polls (doCommand i) ++ rest) :
    ∃ v n t v', exec i { s.acceptCommand (encode i) with
          agenda := .host (.read 4 0x000C) :: rest, readData := v, draws := n } = .next t ∧
      runSteps (polls + 3) s = .next { t with agenda := rest, readData := v' } ∧ v'.getLsbD 0 = false := by
  rw [hostAgenda_doCommand] at ha
  obtain ⟨v, n, hpolls⟩ := run_busy_polls polls (off := 0x000C) (by decide) (by decide) 2
    (.core :: .host (.read 4 0x000C) :: rest) { s.acceptCommand (encode i) with agenda := _ } rfl hr rfl
  obtain ⟨t, v', ht, hend, hbit⟩ := run_wait_end (i := i) (rest := rest)
    (s := { s.acceptCommand (encode i) with
            agenda := .core :: .host (.read 4 0x000C) :: rest, readData := v, draws := n })
    rfl hr (decode_encode hwf) rfl
  refine ⟨v, n, t, v', ht, ?_, hbit⟩
  exact ((runSteps_succ (polls + 2) (step_cmd_write hb hr ha)).trans hpolls).trans hend

end Sys2Proof.Machine
end

section
/-! The statements of 30_encoding.md, settled. -/

namespace Sys2Proof.Machine

/-- Settles O1: a command stands in its own word. -/
theorem decodeOfEncode : Obligations.DecodeOfEncode := fun _ => decode_encode

/-- Settles O2: `decode_eq_instr_iff` from left to right. -/
theorem encodeOfDecode : Obligations.EncodeOfDecode := fun _ _ => decode_eq_instr_iff.mp

/-- Settles O3: the decoder sees the bits the opcode uses only, and the command does not read the pending word. -/
theorem unusedFieldsAreIgnored : Obligations.UnusedFieldsAreIgnored := by
  intro w w' i hd hagree
  have hd' : decode w' = .instr i := by
    obtain ⟨hwf, hw⟩ := decode_eq_instr_iff.mp hd
    exact decode_eq_instr_iff.mpr ⟨hwf, hw.trans (and_eq_and_of_xor_and_eq_zero hagree)⟩
  refine ⟨hd', fun s ha hb hr hcmd => ?_⟩
  obtain ⟨t, ht, ht'⟩ := exec_withPendCmd w' i s
  refine ⟨t, ?_, ?_⟩
  · rw [step_nil s ha, coreStep_of_decode hb hr (hcmd ▸ hd), ht]
  · rw [step_nil { s with pendCmd := w' } ha, coreStep_of_decode (s := { s with pendCmd := w' }) hb hr hd', ht']

/-- Settles O9: the CMD write, the polls, the core's turn and the last read, and that the command's effect does not
depend on what the polls drew and answered. -/
theorem doCommandCompletes : Obligations.DoCommandCompletes := by
  intro s i polls rest hwf hb hr ha
  obtain ⟨v, n, t, v', ht, hrun, hbit⟩ := run_doCommand hwf hb hr ha
  obtain ⟨t', u, ht', hu, hsame⟩ := exec_congr i
    (s := { s.acceptCommand (encode i) with agenda := .host (.read 4 0x000C) :: rest, readData := v, draws := n })
    (t := { s.acceptCommand (encode i) with agenda := rest }) (.refl _)
  cases ht.symm.trans ht'
  obtain ⟨-, htovr, -⟩ := exec_sameControl ht
  obtain ⟨-, huovr, -⟩ := exec_sameControl hu
  obtain ⟨hlanes, hrate, hcursor, hphase, hpolys, hiob, harg, hbusy, herr, -, -⟩ := hsame
  exact ⟨_, u, hu, hrun, hbit, hlanes, hrate, hcursor, hphase, hpolys, hiob, harg, hbusy,
    htovr.trans huovr.symm, herr, rfl⟩

/-- Settles O4, word by word. -/
theorem decodeOfSpecWords : Obligations.DecodeOfSpecWords := by
  unfold Obligations.DecodeOfSpecWords
  decide

end Sys2Proof.Machine
end

section
/-! SUPPORT. The lanes of a state in coordinates (R10, R20) and the five steps of a round lane by lane (R101 to R105). -/

namespace Sys2Proof.Machine

variable (A : Lanes)

/-! ### Lanes in coordinates -/

/-- Coordinates are taken mod 5 (R10). -/
theorem laneAt_congr {x x' y y' : Nat} (hx : x % 5 = x' % 5) (hy : y % 5 = y' % 5) :
    laneAt A x y = laneAt A x' y' := by
  simp only [laneAt, hx, hy]

@[simp] theorem laneAt_mod_left (x y : Nat) : laneAt A (x % 5) y = laneAt A x y := laneAt_congr A (Nat.mod_mod x 5) rfl

@[simp] theorem laneAt_mod_right (x y : Nat) : laneAt A x (y % 5) = laneAt A x y := laneAt_congr A rfl (Nat.mod_mod y 5)

@[simp] theorem laneAt_mod_add_left (x n y : Nat) : laneAt A (x % 5 + n) y = laneAt A (x + n) y :=
  laneAt_congr A (Nat.mod_add_mod x 5 n) rfl

/-- Lane `i` has coordinates i mod 5 and i / 5 (R20). -/
theorem getElem_eq_laneAt {i : Nat} (hi : i < 25) : A[i] = laneAt A (i % 5) (i / 5) := by
  have : i % 5 % 5 + 5 * (i / 5 % 5) = i := by omega
  simp only [laneAt, this]

theorem lanes_ext {A B : Lanes} (h : ∀ x y, laneAt A x y = laneAt B x y) : A = B := by
  apply Vector.ext
  intro i hi
  rw [getElem_eq_laneAt A hi, getElem_eq_laneAt B hi, h]

theorem laneAt_lanesOf (f : Nat → Nat → Lane) (x y : Nat) : laneAt (lanesOf f) x y = f (x % 5) (y % 5) := by
  have hx : (x % 5 + 5 * (y % 5)) % 5 = x % 5 := by omega
  have hy : (x % 5 + 5 * (y % 5)) / 5 = y % 5 := by omega
  simp only [laneAt, lanesOf, tabulate_getElem, hx, hy]

theorem lanesOf_getElem (f : Nat → Nat → Lane) {i : Nat} (hi : i < 25) : (lanesOf f)[i] = f (i % 5) (i / 5) := by
  simp only [lanesOf, tabulate_getElem]

/-! ### The steps lane by lane -/

theorem columnParity_congr {x x' : Nat} (hx : x % 5 = x' % 5) : columnParity A x = columnParity A x' := by
  simp only [columnParity, laneAt_congr A hx rfl]

@[simp] theorem columnParity_mod_add (x n : Nat) : columnParity A (x % 5 + n) = columnParity A (x + n) :=
  columnParity_congr A (Nat.mod_add_mod x 5 n)

theorem laneAt_theta (x y : Nat) : laneAt (theta A) x y =
    laneAt A x y ^^^ (columnParity A (x + 4) ^^^ rol64 (columnParity A (x + 1)) 1) := by
  simp only [theta, laneAt_lanesOf, columnParity_mod_add, laneAt_mod_left, laneAt_mod_right]

@[simp] theorem rotOffset_mod (x y : Nat) : rotOffset (x % 5) (y % 5) = rotOffset x y := by
  simp only [rotOffset, Nat.mod_mod]

theorem laneAt_rho (x y : Nat) : laneAt (rho A) x y = rol64 (laneAt A x y) (rotOffset x y) := by
  simp only [rho, laneAt_lanesOf, rotOffset_mod, laneAt_mod_left, laneAt_mod_right]

theorem laneAt_pi (x y : Nat) : laneAt (pi A) x y = laneAt A (x + 3 * y) x := by
  rw [pi, laneAt_lanesOf]
  exact laneAt_congr A (by omega) (by omega)

theorem laneAt_chi (x y : Nat) : laneAt (chi A) x y =
    laneAt A x y ^^^ (~~~ laneAt A (x + 1) y &&& laneAt A (x + 2) y) := by
  simp only [chi, laneAt_lanesOf, laneAt_mod_add_left, laneAt_mod_left, laneAt_mod_right]

theorem laneAt_iota_origin (ir : Fin 24) : laneAt (iota A ir) 0 0 = laneAt A 0 0 ^^^ roundConstant ir := by
  simp [iota, laneAt]

theorem laneAt_iota_of_ne (ir : Fin 24) {x y : Nat} (h : x % 5 ≠ 0 ∨ y % 5 ≠ 0) :
    laneAt (iota A ir) x y = laneAt A x y := by
  have : 0 ≠ x % 5 + 5 * (y % 5) := by omega
  simp only [iota, laneAt, Vector.getElem_set, if_neg this]

/-- What ι adds to lane (0, 0) is the round constant. -/
theorem iota_origin_xor (ir : Fin 24) : laneAt (iota A ir) 0 0 ^^^ laneAt A 0 0 = roundConstant ir := by
  rw [laneAt_iota_origin, BitVec.xor_comm (laneAt A 0 0), BitVec.xor_assoc, BitVec.xor_self, BitVec.xor_zero]

/-! ### Rotations -/

theorem rol64_getMsbD (v : Lane) (n : Nat) {i : Nat} (hi : i < 64) :
    (rol64 v n).getMsbD i = v.getMsbD ((n + i) % 64) := by
  simp [rol64, BitVec.getMsbD_rotateLeft, hi]

theorem rol64_rol64 (v : Lane) (m n : Nat) : rol64 (rol64 v m) n = rol64 v (m + n) := by
  apply BitVec.eq_of_getMsbD_eq
  intro i hi
  have : (m + (n + i) % 64) % 64 = (m + n + i) % 64 := by omega
  rw [rol64_getMsbD _ n hi, rol64_getMsbD v m (Nat.mod_lt _ (by decide)), rol64_getMsbD v _ hi, this]

/-- A rotation by a multiple of the lane's width. -/
theorem rol64_mul_width (v : Lane) (n : Nat) : rol64 v (64 * n) = v := by
  apply BitVec.eq_of_getMsbD_eq
  intro i hi
  rw [rol64_getMsbD v _ hi, Nat.mul_add_mod, Nat.mod_eq_of_lt hi]

theorem rol64_xor (v w : Lane) (n : Nat) : rol64 (v ^^^ w) n = rol64 v n ^^^ rol64 w n := by
  apply BitVec.eq_of_getMsbD_eq
  intro i hi
  simp only [BitVec.getMsbD_xor, rol64_getMsbD _ n hi]

/-! ### The tables of R102 and R105 -/

/-- The offsets as R102's list, by the number of the lane. -/
theorem rotOffset_eq_list : ∀ i : Fin 25, rotOffset (i.val % 5) (i.val / 5) =
    ([0, 1, 62, 28, 27, 36, 44, 6, 55, 20, 3, 10, 43, 25, 39, 41, 45, 15, 21, 8, 18, 2, 61, 56,
      14] : List Nat).getD i 0 := by
  decide

/-- The offsets as R102's walk produces them. -/
theorem rotOffset_rhoWalk : ∀ t < 24,
    rotOffset (Reference.rhoWalk t).1 (Reference.rhoWalk t).2 = (t + 1) * (t + 2) / 2 % 64 := by
  decide +kernel

/-- The bits at the positions 2^j - 1 as R105's LFSR produces them. -/
theorem roundConstant_getLsbD_eq_rcBit : ∀ ir : Fin 24, ∀ j < 7,
    (roundConstant ir).getLsbD (2 ^ j - 1) = Reference.rcBit (j + 7 * ir.val) := by
  decide +kernel

/-- Every other bit is 0 (R105). -/
theorem roundConstant_getLsbD_of_ne : ∀ ir : Fin 24, ∀ b < 64, (∀ j < 7, b ≠ 2 ^ j - 1) →
    (roundConstant ir).getLsbD b = false := by
  decide +kernel

end Sys2Proof.Machine
end

section
/-! SUPPORT. Every step of a round is a bijection on the states, and so is KeccakF (R100). -/

namespace Sys2Proof.Machine

open Function

/-! ### ρ, π, ι -/

/-- ρ undone: each lane rotated on to a whole turn. -/
def rhoInv (A : Lanes) : Lanes := lanesOf fun x y => rol64 (laneAt A x y) (63 * rotOffset x y)

theorem laneAt_rhoInv (A : Lanes) (x y : Nat) :
    laneAt (rhoInv A) x y = rol64 (laneAt A x y) (63 * rotOffset x y) := by
  simp only [rhoInv, laneAt_lanesOf, rotOffset_mod, laneAt_mod_left, laneAt_mod_right]

theorem rho_bijective : Bijective rho := by
  refine bijective_iff_has_inverse.mpr ⟨rhoInv, fun A => lanes_ext fun x y => ?_, fun A => lanes_ext fun x y => ?_⟩
  · rw [laneAt_rhoInv, laneAt_rho, rol64_rol64, show ∀ n, n + 63 * n = 64 * n by omega, rol64_mul_width]
  · rw [laneAt_rho, laneAt_rhoInv, rol64_rol64, show ∀ n, 63 * n + n = 64 * n by omega, rol64_mul_width]

/-- π undone: lane (x, y) is where π has put it, at (y, 2x + 3y). -/
def piInv (A : Lanes) : Lanes := lanesOf fun x y => laneAt A y (2 * x + 3 * y)

theorem laneAt_piInv (A : Lanes) (x y : Nat) : laneAt (piInv A) x y = laneAt A y (2 * x + 3 * y) := by
  rw [piInv, laneAt_lanesOf]
  exact laneAt_congr A (by omega) (by omega)

theorem pi_bijective : Bijective pi := by
  refine bijective_iff_has_inverse.mpr ⟨piInv, fun A => lanes_ext fun x y => ?_, fun A => lanes_ext fun x y => ?_⟩
  · rw [laneAt_piInv, laneAt_pi]
    exact laneAt_congr A (by omega) rfl
  · rw [laneAt_pi, laneAt_piInv]
    exact laneAt_congr A rfl (by omega)

theorem iota_iota (ir : Fin 24) (A : Lanes) : iota (iota A ir) ir = A := by
  simp [iota, Vector.set_set]

theorem iota_bijective (ir : Fin 24) : Bijective (iota · ir) :=
  Involutive.bijective (iota_iota ir)

/-! ### χ -/

/-- χ undone, per row. -/
def chiInv (A : Lanes) : Lanes := lanesOf fun x y =>
  laneAt A x y ^^^ (~~~ laneAt A (x + 1) y &&&
    (laneAt A (x + 2) y ^^^ (~~~ laneAt A (x + 3) y &&& laneAt A (x + 4) y)))

theorem laneAt_chiInv (A : Lanes) (x y : Nat) : laneAt (chiInv A) x y =
    laneAt A x y ^^^ (~~~ laneAt A (x + 1) y &&&
      (laneAt A (x + 2) y ^^^ (~~~ laneAt A (x + 3) y &&& laneAt A (x + 4) y))) := by
  simp only [chiInv, laneAt_lanesOf, laneAt_mod_add_left, laneAt_mod_left, laneAt_mod_right]

/-- Five lanes of a row through χ and back. -/
theorem chiInv_chi_row (a b c d e : Lane) :
    (a ^^^ (~~~ b &&& c)) ^^^ (~~~ (b ^^^ (~~~ c &&& d)) &&&
      ((c ^^^ (~~~ d &&& e)) ^^^ (~~~ (d ^^^ (~~~ e &&& a)) &&& (e ^^^ (~~~ a &&& b))))) = a := by
  have hbit : ∀ a b c d e : Bool, ((a ^^ (!b && c)) ^^ (!(b ^^ (!c && d)) &&
      ((c ^^ (!d && e)) ^^ (!(d ^^ (!e && a)) && (e ^^ (!a && b)))))) = a := by decide
  apply BitVec.eq_of_getElem_eq
  intro i hi
  simpa only [BitVec.getElem_xor, BitVec.getElem_and, BitVec.getElem_not] using hbit ..

/-- Five lanes of a row through χ undone and χ. -/
theorem chi_chiInv_row (a b c d e : Lane) :
    (a ^^^ (~~~ b &&& (c ^^^ (~~~ d &&& e)))) ^^^ (~~~ (b ^^^ (~~~ c &&& (d ^^^ (~~~ e &&& a)))) &&&
      (c ^^^ (~~~ d &&& (e ^^^ (~~~ a &&& b))))) = a := by
  have hbit : ∀ a b c d e : Bool, ((a ^^ (!b && (c ^^ (!d && e)))) ^^ (!(b ^^ (!c && (d ^^ (!e && a)))) &&
      (c ^^ (!d && (e ^^ (!a && b)))))) = a := by decide
  apply BitVec.eq_of_getElem_eq
  intro i hi
  simpa only [BitVec.getElem_xor, BitVec.getElem_and, BitVec.getElem_not] using hbit ..

/-- Five lanes on, the row begins again. -/
theorem laneAt_add_five (A : Lanes) (x y n : Nat) : laneAt A (x + (n + 5)) y = laneAt A (x + n) y :=
  laneAt_congr A (by omega) rfl

theorem chi_bijective : Bijective chi := by
  refine bijective_iff_has_inverse.mpr ⟨chiInv, fun A => lanes_ext fun x y => ?_, fun A => lanes_ext fun x y => ?_⟩
  · simp only [laneAt_chiInv, laneAt_chi, Nat.add_assoc, Nat.reduceAdd, laneAt_add_five A x y 0, laneAt_add_five A x y 1]
    exact chiInv_chi_row ..
  · simp only [laneAt_chiInv, laneAt_chi, Nat.add_assoc, Nat.reduceAdd, laneAt_add_five A x y 0, laneAt_add_five A x y 1]
    exact chi_chiInv_row ..

/-! ### θ

θ adds to every lane of column x a combination of the column parities C: C[x-1] and C[x+1] rotated. Adding the shifted
and rotated combination below for k, twice, is adding it for 2k once, since the cross terms meet twice and cancel. At
k = 64 the rotations are gone, and what is left has order 3. -/

/-- The parities of θ's two neighbour columns, the shifts and the rotation taken `k` times. -/
def neighbourParity (k : Nat) (A : Lanes) (x : Nat) : Lane :=
  columnParity A (x + 4 * k) ^^^ rol64 (columnParity A (x + k)) k

/-- θ with the shifts and the rotation taken `k` times. -/
def thetaBy (k : Nat) (A : Lanes) : Lanes := lanesOf fun x y => laneAt A x y ^^^ neighbourParity k A x

theorem thetaBy_one : thetaBy 1 = theta := rfl

theorem laneAt_thetaBy (k : Nat) (A : Lanes) (x y : Nat) :
    laneAt (thetaBy k A) x y = laneAt A x y ^^^ neighbourParity k A x := by
  simp only [thetaBy, neighbourParity, laneAt_lanesOf, columnParity_mod_add, laneAt_mod_left, laneAt_mod_right]

theorem xor_xor_xor_cancel {n : Nat} (a b c : BitVec n) : (a ^^^ b) ^^^ (b ^^^ c) = a ^^^ c := by
  rw [BitVec.xor_assoc, ← BitVec.xor_assoc b, BitVec.xor_self, BitVec.zero_xor]

/-- A word that stands in both summands cancels. -/
theorem xor_cross_cancel {n : Nat} (a b c d m : BitVec n) :
    (a ^^^ (b ^^^ m)) ^^^ (c ^^^ (m ^^^ d)) = (a ^^^ c) ^^^ (b ^^^ d) :=
  calc
    _ = ((a ^^^ b) ^^^ m) ^^^ (m ^^^ (c ^^^ d)) := by ac_rfl
    _ = (a ^^^ b) ^^^ (c ^^^ d) := xor_xor_xor_cancel ..
    _ = (a ^^^ c) ^^^ (b ^^^ d) := by ac_rfl

/-- A column has five lanes, an odd number: its parity takes the added word once. -/
theorem columnParity_thetaBy (k : Nat) (A : Lanes) (x : Nat) :
    columnParity (thetaBy k A) x = columnParity A x ^^^ neighbourParity k A x := by
  apply BitVec.eq_of_getLsbD_eq
  intro i _
  simp only [columnParity, laneAt_thetaBy, BitVec.getLsbD_xor]
  cases (neighbourParity k A x).getLsbD i <;> simp

/-- The combination for `k` after it has been added once: the cross terms meet twice and cancel. -/
theorem neighbourParity_thetaBy (k : Nat) (A : Lanes) (x : Nat) :
    neighbourParity k (thetaBy k A) x = neighbourParity k A x ^^^ neighbourParity (2 * k) A x := by
  have hcross : rol64 (neighbourParity k A (x + k)) k =
      rol64 (columnParity A (x + k + 4 * k)) k ^^^ rol64 (columnParity A (x + 2 * k)) (2 * k) := by
    rw [neighbourParity, rol64_xor, rol64_rol64, ← Nat.two_mul, Nat.add_assoc x k k, ← Nat.two_mul]
  have hshift : neighbourParity k A (x + 4 * k) =
      columnParity A (x + 4 * (2 * k)) ^^^ rol64 (columnParity A (x + k + 4 * k)) k := by
    rw [neighbourParity, Nat.add_right_comm x k, show x + 4 * k + 4 * k = x + 4 * (2 * k) by omega]
  rw [neighbourParity, columnParity_thetaBy, columnParity_thetaBy, rol64_xor, hcross, hshift, xor_cross_cancel,
    neighbourParity, neighbourParity]

theorem thetaBy_thetaBy (k : Nat) (A : Lanes) : thetaBy k (thetaBy k A) = thetaBy (2 * k) A := by
  apply lanes_ext
  intro x y
  rw [laneAt_thetaBy, laneAt_thetaBy, neighbourParity_thetaBy, xor_xor_xor_cancel, laneAt_thetaBy]

theorem thetaBy_bijective_of_two_mul {k : Nat} (h : Bijective (thetaBy (2 * k))) : Bijective (thetaBy k) := by
  have hcomp : thetaBy (2 * k) = thetaBy k ∘ thetaBy k := funext fun A => (thetaBy_thetaBy k A).symm
  rw [hcomp] at h
  exact ⟨h.injective.of_comp, h.surjective.of_comp⟩

/-- At a multiple of the lane's width no rotation is left. -/
theorem neighbourParity_mul_width (k : Nat) (A : Lanes) (x : Nat) :
    neighbourParity (64 * k) A x = columnParity A (x + k) ^^^ columnParity A (x + 4 * k) := by
  rw [neighbourParity, rol64_mul_width, columnParity_congr A (x' := x + k) (by omega),
    columnParity_congr A (x := x + 64 * k) (x' := x + 4 * k) (by omega)]

/-- After `thetaBy 128`, which sends C[x] to C[x] + C[x+2] + C[x+3], the combination for 64, C[x+1] + C[x+4], is
C[x+2] + C[x+3] of the parities before. -/
theorem neighbourParity_thetaBy_128 (A : Lanes) (x : Nat) :
    neighbourParity 64 (thetaBy 128 A) x = neighbourParity 128 A x := by
  have h128 := neighbourParity_mul_width 2 A
  simp only [Nat.reduceMul] at h128
  calc
    _ = (columnParity A (x + 1) ^^^ neighbourParity 128 A (x + 1)) ^^^
          (columnParity A (x + 4) ^^^ neighbourParity 128 A (x + 4)) := by
      rw [neighbourParity_mul_width 1, columnParity_thetaBy, columnParity_thetaBy]
    _ = (columnParity A (x + 1) ^^^ (columnParity A (x + 3) ^^^ columnParity A (x + 4))) ^^^
          (columnParity A (x + 4) ^^^ (columnParity A (x + 1) ^^^ columnParity A (x + 2))) := by
      rw [h128, h128, columnParity_congr A (x := x + 1 + 8) (x' := x + 4) (by omega),
        columnParity_congr A (x := x + 4 + 2) (x' := x + 1) (by omega),
        columnParity_congr A (x := x + 4 + 8) (x' := x + 2) (by omega)]
    _ = columnParity A (x + 2) ^^^ columnParity A (x + 3) := by grind
    _ = neighbourParity 128 A x := by
      rw [h128, columnParity_congr A (x := x + 8) (x' := x + 3) (by omega)]

theorem thetaBy_64_thetaBy_128 (A : Lanes) : thetaBy 64 (thetaBy 128 A) = A := by
  apply lanes_ext
  intro x y
  rw [laneAt_thetaBy, laneAt_thetaBy, neighbourParity_thetaBy_128, BitVec.xor_assoc, BitVec.xor_self, BitVec.xor_zero]

theorem thetaBy_128_thetaBy_64 (A : Lanes) : thetaBy 128 (thetaBy 64 A) = A := by
  rw [← thetaBy_thetaBy 64 (thetaBy 64 A), thetaBy_thetaBy 64 A, thetaBy_64_thetaBy_128]

/-- θ doubled `n` times is `thetaBy (2 ^ n)`, and each doubling hands bijectivity down. -/
theorem theta_bijective_of_two_pow (n : Nat) (h : Bijective (thetaBy (2 ^ n))) : Bijective theta := by
  induction n with
  | zero => exact thetaBy_one ▸ h
  | succ n ih => exact ih (thetaBy_bijective_of_two_mul (Nat.pow_succ' ▸ h))

theorem theta_bijective : Bijective theta :=
  theta_bijective_of_two_pow 6 <|
    bijective_iff_has_inverse.mpr ⟨thetaBy 128, thetaBy_128_thetaBy_64, thetaBy_64_thetaBy_128⟩

/-! ### Rounds -/

theorem keccakRound_bijective (ir : Fin 24) : Bijective (keccakRound · ir) :=
  (iota_bijective ir).comp (chi_bijective.comp (pi_bijective.comp (rho_bijective.comp theta_bijective)))

theorem foldl_keccakRound_bijective (irs : List (Fin 24)) : Bijective fun A => irs.foldl keccakRound A := by
  induction irs with
  | nil => exact bijective_id
  | cons ir irs ih => exact ih.comp (keccakRound_bijective ir)

end Sys2Proof.Machine
end

section
/-! SUPPORT. The core of a round counter and a step index, five steps at a time (R34, R100). -/

namespace Sys2Proof.Machine

/-- Five steps from θ are one round, and the counter is on the next. -/
theorem ticks_round (k : Nat) (A : Lanes) (r : Fin 24) :
    KeccakUnit.ticks (k + 5) { lanes := A, round := r, step := .theta } =
      KeccakUnit.ticks k { lanes := keccakRound A r, round := r + 1, step := .theta } := rfl

theorem ticks_rounds_lanes (n : Nat) (A : Lanes) (r : Fin 24) :
    (KeccakUnit.ticks (5 * n) { lanes := A, round := r, step := .theta }).lanes =
      (List.iterate (· + 1) r n).foldl keccakRound A := by
  induction n generalizing A r with
  | zero => rfl
  | succ n ih => rw [Nat.mul_succ, ticks_round, ih, List.iterate, List.foldl_cons]

end Sys2Proof.Machine
end

section
/-! The statements of 41_permutation.md, settled. -/

namespace Sys2Proof.Machine

open Sys2Proof.Reference

/-- Settles O24: KeccakF is a fold of rounds. -/
theorem keccakIsBijective : Obligations.KeccakIsBijective := foldl_keccakRound_bijective (List.finRange 24)

/-- Settles O25: the counter runs through the rounds in their order. -/
theorem stepMachineComputesKeccak : Obligations.StepMachineComputesKeccak := by
  intro A
  have hrounds : List.iterate (· + 1) (0 : Fin 24) 24 = List.finRange 24 := by decide
  exact (ticks_rounds_lanes 24 A 0).trans (congrArg (List.foldl keccakRound A) hrounds)

/-- Settles O22, step by step. -/
theorem keccakStepRules : Obligations.KeccakStepRules := by
  intro A
  refine ⟨fun x y _ _ => ?theta, fun i => ?rhoList, ⟨?rhoOrigin, fun t ht => ?rhoWalk⟩, fun x y hx hy => ?pi,
    fun x y _ _ => ?chi, fun ir => ⟨fun row hrow => ?iotaTable, fun x y hx hy h => ?iotaOther, fun j hj => ?lfsr,
      fun b hb h => ?zeroBits⟩⟩
  case theta => simp only [laneAt_theta, columnParity, laneAt_mod_left]
  case rhoList =>
    simp only [Fin.getElem_fin]
    rw [← rotOffset_eq_list, rho, lanesOf_getElem _ i.isLt, ← getElem_eq_laneAt A i.isLt]
  case rhoOrigin => rw [laneAt_rho]; exact rol64_mul_width (laneAt A 0 0) 0
  case rhoWalk => simp only [laneAt_rho, rotOffset_rhoWalk t ht]
  case pi =>
    rw [laneAt_pi]
    exact laneAt_congr A (by omega) rfl
  case chi => simp only [laneAt_chi, laneAt_mod_left]
  case iotaTable =>
    suffices h : (ir.val = row.1 → roundConstant ir = row.2.1) ∧
        (ir.val = row.2.2.1 → roundConstant ir = row.2.2.2) from
      h.imp (fun h e => by rw [laneAt_iota_origin, h e]) (fun h e => by rw [laneAt_iota_origin, h e])
    revert ir row
    decide +kernel
  case iotaOther => exact laneAt_iota_of_ne A ir (by omega)
  case lfsr => rw [iota_origin_xor, roundConstant_getLsbD_eq_rcBit ir j hj]
  case zeroBits => rw [iota_origin_xor, roundConstant_getLsbD_of_ne ir b hb h]

/-- Settles O23, by evaluation. -/
theorem keccakKnownAnswer : Obligations.KeccakKnownAnswer := by
  unfold Obligations.KeccakKnownAnswer
  decide +kernel

/-- Settles O26: PERMUTE answers in every phase, and what `State.permute` and ending the command leave is outside the
lanes and STATUS. -/
theorem permuteResult : Obligations.PermuteResult := fun s =>
  ⟨_, exec_permute s, rfl, rfl, rfl, rfl, rfl, rfl, rfl, rfl, exec_sameControl (exec_permute s),
    sameWindowOutside_of rfl rfl (.inr ⟨by decide, by decide⟩) rfl (fun _ _ _ => rfl) (by decide) (by decide)⟩

end Sys2Proof.Machine
end

section
/-! SUPPORT. The sponge's loops against the published sponge (R122 to R127, R129): ABSORB as byte strings XORed into the
state block by block, FINAL's padding as bytes absorbed, and SQUEEZE as one stream of output bytes. -/

namespace Sys2Proof.Machine

open Sys2Proof.Reference

/-! ### Byte strings XORed into the state, and ABSORB up to the end of a block -/

/-- The lanes of given bytes hold them (R21). -/
theorem stateByte_lanesOfBytes (f : Nat → Byte) {i : Nat} (hi : i < 200) : stateByte (lanesOfBytes f) i = f i := by
  obtain ⟨l, r, hr, rfl⟩ : ∃ l r, r < 8 ∧ i = 8 * l + r := ⟨i / 8, i % 8, by omega, by omega⟩
  have hlane : (8 * l + r) / 8 = l := by omega
  have hbyte : (8 * l + r) % 8 = r := by omega
  apply BitVec.eq_of_getLsbD_eq
  intro j hj
  rw [stateByte_getLsbD _ _ _ hj, getD_of_lt _ _ _ (by omega), lanesOfBytes, tabulate_getElem]
  simp only [BitVec.getLsbD_append, hlane, hbyte]
  -- one goal for each of the eight bytes of the lane
  interval_cases r <;> simp (disch := omega) only [if_neg, if_pos] <;> congr 1 <;> omega

/-- The state with the bytes of `bs` XORed into it from state byte `c` on (R122). -/
def xorBytesAt (A : Lanes) (c : Nat) (bs : List Byte) : Lanes :=
  lanesOfBytes fun i => stateByte A i ^^^ if c ≤ i then bs.getD (i - c) 0 else 0

theorem stateByte_xorBytesAt (A : Lanes) (c : Nat) (bs : List Byte) {i : Nat} (hi : i < 200) :
    stateByte (xorBytesAt A c bs) i = stateByte A i ^^^ if c ≤ i then bs.getD (i - c) 0 else 0 :=
  stateByte_lanesOfBytes _ hi

@[simp] theorem xorBytesAt_nil (A : Lanes) (c : Nat) : xorBytesAt A c [] = A :=
  lanes_ext_bytes fun i hi => by simp [stateByte_xorBytesAt _ _ _ hi]

/-- One more byte, at the place after the last one. -/
theorem xorStateByte_xorBytesAt (A : Lanes) (c : Nat) (bs : List Byte) (b : Byte) (h : c + bs.length < 200) :
    xorStateByte (xorBytesAt A c bs) (c + bs.length) b = xorBytesAt A c (bs ++ [b]) := by
  refine lanes_ext_bytes fun i hi => ?_
  rw [stateByte_xorStateByte _ _ _ _ h, stateByte_xorBytesAt _ _ _ hi, stateByte_xorBytesAt _ _ _ hi]
  rcases lt_trichotomy i (c + bs.length) with hlt | rfl | hgt
  · by_cases hc : c ≤ i
    · rw [if_neg hlt.ne, if_pos hc, if_pos hc, List.getD_append _ _ _ _ (by omega)]
    · rw [if_neg hlt.ne, if_neg hc, if_neg hc]
  · simp
  · rw [if_neg hgt.ne', if_pos (by omega), if_pos (by omega), List.getD_eq_default _ _ (by omega),
      List.getD_eq_default _ _ (by rw [List.length_append, List.length_singleton]; omega)]

theorem xorBytesAt_zero (A : Lanes) (bs : List Byte) : xorBytesAt A 0 bs = xorBlock A bs := by
  simp [xorBytesAt, xorBlock]

/-- ABSORB's loop up to the end of the block (R122, R129). -/
theorem absorbBytes_lanes_of_le (bs : List Byte) (s : State) (hc : s.cursor.toNat < s.rate.toNat)
    (hr : s.rate.toNat ≤ 200) (h : s.cursor.toNat + bs.length ≤ s.rate.toNat) :
    (s.absorbBytes bs).lanes =
      if s.cursor.toNat + bs.length = s.rate.toNat then keccakF (xorBytesAt s.lanes s.cursor.toNat bs)
      else xorBytesAt s.lanes s.cursor.toNat bs := by
  induction bs using List.reverseRecOn with
  | nil => rw [if_neg (by simpa using hc.ne), xorBytesAt_nil, absorbBytes_nil]
  | append_singleton bs b ih =>
    rw [List.length_append, List.length_singleton, ← Nat.add_assoc] at h ⊢
    have hcursor : (s.absorbBytes bs).cursor.toNat = s.cursor.toNat + bs.length := by
      rw [absorbBytes_cursor bs s hc, Nat.mod_eq_of_lt (by omega)]
    have hlanes := ih (by omega)
    rw [if_neg (by omega)] at hlanes
    rw [absorbBytes_append, absorbBytes_cons, absorbBytes_nil,
      absorbByte_lanes _ _ (by rw [hcursor, absorbBytes_rate]; omega), hcursor, absorbBytes_rate, hlanes,
      xorStateByte_xorBytesAt _ _ _ _ (by omega)]

/-- Absorbing one whole block from its start is XOR and permute, and the next block begins (R122). -/
theorem absorbBytes_block (block : List Byte) (s : State) (hc : s.cursor = 0) (h0 : 0 < s.rate.toNat)
    (hr : s.rate.toNat ≤ 200) (hlen : block.length = s.rate.toNat) :
    (s.absorbBytes block).lanes = keccakF (xorBlock s.lanes block) ∧ (s.absorbBytes block).cursor = 0 := by
  have hc0 : s.cursor.toNat = 0 := congrArg BitVec.toNat hc
  have hlanes := absorbBytes_lanes_of_le block s (by omega) hr (by omega)
  have hcursor := absorbBytes_cursor block s (by omega)
  rw [if_pos (by omega), hc0, xorBytesAt_zero] at hlanes
  rw [hc0, hlen, Nat.zero_add, Nat.mod_self] at hcursor
  exact ⟨hlanes, BitVec.eq_of_toNat_eq hcursor⟩

/-- Absorbing whole blocks from the start of one is the published sponge's absorption (R122, R127). -/
theorem absorbBytes_blocks (n : Nat) (p : List Byte) (s : State) (hc : s.cursor = 0) (h0 : 0 < s.rate.toNat)
    (hr : s.rate.toNat ≤ 200) (hp : p.length = n * s.rate.toNat) :
    (s.absorbBytes p).lanes = absorbBlocks s.rate.toNat n p s.lanes := by
  induction n generalizing p s with
  | zero =>
    have hnil : p = [] := List.eq_nil_of_length_eq_zero (by omega)
    rw [hnil, absorbBytes_nil, absorbBlocks]
  | succ n ih =>
    rw [Nat.succ_mul] at hp
    obtain ⟨hlanes, hcursor⟩ := absorbBytes_block (p.take s.rate.toNat) s hc h0 hr (by rw [List.length_take]; omega)
    have hrate := absorbBytes_rate s (p.take s.rate.toNat)
    have hrest := ih (p.drop s.rate.toNat) (s.absorbBytes (p.take s.rate.toNat)) hcursor
      (by rwa [hrate]) (by rwa [hrate]) (by rw [hrate, List.length_drop]; omega)
    rwa [← absorbBytes_append, List.take_append_drop, hrate, hlanes] at hrest

/-! ### FINAL's padding, as bytes absorbed -/

/-- The bytes that FINAL's padding XORs into the block from a cursor `c` on (R123). -/
def padding (rate c : Nat) : List Byte :=
  if rate - c = 1 then [0x9F] else [0x1F] ++ List.replicate (rate - c - 2) 0 ++ [0x80]

theorem padded_eq_append_padding (rate : Nat) (m : List Byte) :
    padded rate m = m ++ padding rate (m.length % rate) := by
  simp only [padded, padding]
  split
  · rfl
  · simp only [List.append_assoc]

theorem padding_length {rate c : Nat} (hc : c < rate) : (padding rate c).length = rate - c := by
  unfold padding
  split
  case isTrue h => rw [h, List.length_singleton]
  case isFalse h =>
    simp only [List.length_append, List.length_singleton, List.length_replicate]
    omega

/-- The padding byte by byte: the suffix in the first byte and the top bit in the last, which may be one (R123). -/
theorem padding_getD {rate c : Nat} (hc : c < rate) (j : Nat) :
    (padding rate c).getD j 0 =
      (if j = 0 then Config.padSuffix else 0) ^^^ (if j = rate - 1 - c then Config.padLast else 0) := by
  unfold padding
  split
  case isTrue h =>
    rw [show rate - 1 - c = 0 by omega]
    cases j <;> simp
  case isFalse h =>
    obtain ⟨z, hz⟩ : ∃ z, rate - c = z + 2 := ⟨rate - c - 2, by omega⟩
    have hlen : ([0x1F] ++ List.replicate z (0 : Byte)).length = z + 1 := by simp
    rw [hz, show rate - 1 - c = z + 1 by omega, Nat.add_sub_cancel]
    rcases lt_trichotomy j (z + 1) with hlt | rfl | hgt
    · rw [List.getD_append _ _ _ _ (by rwa [hlen]), if_neg hlt.ne]
      cases j <;> simp
    · simp
    · rw [List.getD_eq_default _ _ (by rw [List.length_append, hlen, List.length_singleton]; omega),
        if_neg (by omega), if_neg hgt.ne']
      rfl

/-- FINAL's padding byte by byte (R123). -/
theorem stateByte_paddedLanes (s : State) (hc : s.cursor.toNat < s.rate.toNat) (hr : s.rate.toNat ≤ 200) (i : Nat) :
    stateByte (paddedLanes s) i = stateByte s.lanes i ^^^ (if i = s.cursor.toNat then Config.padSuffix else 0)
      ^^^ (if i = s.rate.toNat - 1 then Config.padLast else 0) := by
  rw [paddedLanes, stateByte_xorStateByte _ _ _ _ (by omega), stateByte_xorStateByte _ _ _ _ (by omega)]
  split_ifs <;> simp

/-- FINAL's padding is the padding bytes XORed into the block from CURSOR on (R123). -/
theorem paddedLanes_eq_xorBytesAt (s : State) (hc : s.cursor.toNat < s.rate.toNat) (hr : s.rate.toNat ≤ 200) :
    paddedLanes s = xorBytesAt s.lanes s.cursor.toNat (padding s.rate.toNat s.cursor.toNat) := by
  refine lanes_ext_bytes fun i hi => ?_
  rw [stateByte_paddedLanes s hc hr, stateByte_xorBytesAt _ _ _ hi, padding_getD hc, BitVec.xor_assoc]
  congr 1
  by_cases h : s.cursor.toNat ≤ i
  · rw [if_pos h]
    congr 2 <;> rw [eq_iff_iff] <;> omega
  · rw [if_neg h, if_neg (by omega), if_neg (by omega)]
    rfl

/-- FINAL's permuted padding is what ABSORB's loop makes of the padding bytes (R123, R127). -/
theorem absorbBytes_padding_lanes (s : State) (hc : s.cursor.toNat < s.rate.toNat) (hr : s.rate.toNat ≤ 200) :
    (s.absorbBytes (padding s.rate.toNat s.cursor.toNat)).lanes = keccakF (paddedLanes s) := by
  have hend : s.cursor.toNat + (padding s.rate.toNat s.cursor.toNat).length = s.rate.toNat := by
    rw [padding_length hc]; omega
  rw [absorbBytes_lanes_of_le _ _ hc hr hend.le, if_pos hend, paddedLanes_eq_xorBytesAt s hc hr]

theorem padded_length_div_mul {rate : Nat} (h0 : 0 < rate) (m : List Byte) :
    (padded rate m).length / rate * rate = (padded rate m).length := by
  have hmod := Nat.mod_lt m.length h0
  have hdiv := Nat.div_add_mod m.length rate
  refine Nat.div_mul_cancel ⟨m.length / rate + 1, ?_⟩
  rw [padded_eq_append_padding, List.length_append, padding_length hmod, Nat.mul_succ]
  omega

/-- A message absorbed from the start of a block and then padded by FINAL is the padded message absorbed block by
block (R127). -/
theorem keccakF_paddedLanes_absorbBytes (m : List Byte) (s : State) (hc : s.cursor = 0) (h0 : 0 < s.rate.toNat)
    (hr : s.rate.toNat ≤ 200) :
    keccakF (paddedLanes (s.absorbBytes m)) =
      absorbBlocks s.rate.toNat ((padded s.rate.toNat m).length / s.rate.toNat) (padded s.rate.toNat m) s.lanes := by
  have hc0 : s.cursor.toNat = 0 := congrArg BitVec.toNat hc
  have hrate := absorbBytes_rate s m
  have hcursor := absorbBytes_cursor m s (by omega)
  rw [hc0, Nat.zero_add] at hcursor
  have hpad := absorbBytes_padding_lanes (s.absorbBytes m) (by rw [hcursor, hrate]; exact Nat.mod_lt _ h0)
    (by rwa [hrate])
  rw [hcursor, hrate, ← absorbBytes_append, ← padded_eq_append_padding] at hpad
  rw [← hpad]
  exact absorbBytes_blocks _ _ s hc h0 hr (padded_length_div_mul h0 m).symm

/-! ### The output stream of SQUEEZE (R124, R126) -/

/-- SQUEEZE's loop in two parts is the loop in one; the place in the buffer that each part starts at does not matter. -/
theorem squeezeBytes_squeezeBytes_sameCore (s : State) (m n : Nat) :
    sameCore ((s.squeezeBytes m).squeezeBytes n) (s.squeezeBytes (m + n)) := by
  induction n with
  | zero => exact ⟨rfl, rfl, rfl⟩
  | succ n ih =>
    rw [squeezeBytes_succ, ← Nat.add_assoc, squeezeBytes_succ]
    exact squeezeByte_congr ih n (m + n)

/-- Byte `k` of what SQUEEZE delivers from a state on: the state byte at the cursor after k turns (R124). -/
def State.outputByte (s : State) (k : Nat) : Byte :=
  stateByte (s.squeezeBytes k).lanes (s.squeezeBytes k).cursor.toNat

theorem outputByte_congr {s t : State} (h : sameCore s t) (k : Nat) : s.outputByte k = t.outputByte k := by
  obtain ⟨hlanes, hcursor, -⟩ := squeezeBytes_congr k h
  rw [State.outputByte, State.outputByte, hlanes, hcursor]

theorem outputByte_squeezeBytes (s : State) (m k : Nat) : (s.squeezeBytes m).outputByte k = s.outputByte (m + k) := by
  obtain ⟨hlanes, hcursor, -⟩ := squeezeBytes_squeezeBytes_sameCore s m k
  rw [State.outputByte, State.outputByte, hlanes, hcursor]

/-- The buffer after SQUEEZE's loop: the stream up to byte n, and the old bytes from there on (R124). -/
theorem squeezeBytes_iob_getElem (s : State) (n : Nat) {k : Nat} (hk : k < 1024) :
    (s.squeezeBytes n).iob[k] = if k < n then s.outputByte k else s.iob[k] := by
  rw [← getD_of_lt _ _ 0 hk]
  split
  case isTrue h => exact squeezeBytes_iob n k s h hk
  case isFalse h =>
    obtain ⟨_, _, _, _, _, b, e, hb⟩ := squeezeBytes_frame n s
    rw [e, ← getD_of_lt s.iob k 0 hk]
    exact hb k (by omega)

/-- A buffer read of n bytes that are bytes 0 to n-1 of a stream. -/
theorem iob_take_eq_map_range {iob : Vector Byte 1024} {f : Nat → Byte} {n : Nat} (hn : n ≤ 1024)
    (h : ∀ k (hk : k < 1024), k < n → iob[k] = f k) : iob.toList.take n = (List.range n).map f := by
  refine List.ext_getElem (by simp [hn]) fun k h1 h2 => ?_
  have hk : k < n := by simpa using h2
  simpa using h k (by omega) hk

/-- The quotient grows by one exactly when the remainder has reached its end. -/
theorem add_one_div_eq {r : Nat} (h0 : 0 < r) (a : Nat) : (a + 1) / r = if a % r + 1 = r then a / r + 1 else a / r := by
  have hdiv := Nat.div_add_mod a r
  have hmod := Nat.mod_lt a h0
  split
  · rw [show a + 1 = r * (a / r + 1) by rw [Nat.mul_succ]; omega, Nat.mul_div_cancel_left _ h0]
  · rw [show a + 1 = r * (a / r) + (a % r + 1) by omega, Nat.mul_add_div h0,
      Nat.div_eq_of_lt (show a % r + 1 < r by omega), Nat.add_zero]

/-- The permutation has run once for every time the cursor has reached the rate (R124). -/
theorem squeezeBytes_lanes (n : Nat) (s : State) (hc : s.cursor.toNat < s.rate.toNat) :
    (s.squeezeBytes n).lanes = keccakF^[(s.cursor.toNat + n) / s.rate.toNat] s.lanes := by
  induction n with
  | zero => rw [Nat.add_zero, Nat.div_eq_of_lt hc]; rfl
  | succ n ih =>
    have h0 : 0 < s.rate.toNat := by omega
    have hcursor := squeezeBytes_cursor n s hc
    have hrate := squeezeBytes_rate n s
    rw [squeezeBytes_succ, squeezeByte_lanes _ _ (by rw [hcursor, hrate]; exact Nat.mod_lt _ h0), hcursor, hrate, ih,
      ← Nat.add_assoc, add_one_div_eq h0]
    split
    · rw [Function.iterate_succ_apply']
    · rfl

/-- Byte `k` of the stream is byte c + k of the rate windows of the successive states, counted from CURSOR = c
(R124). -/
theorem outputByte_eq (s : State) (hc : s.cursor.toNat < s.rate.toNat) (k : Nat) : s.outputByte k =
    stateByte (keccakF^[(s.cursor.toNat + k) / s.rate.toNat] s.lanes) ((s.cursor.toNat + k) % s.rate.toNat) := by
  rw [State.outputByte, squeezeBytes_lanes k s hc, squeezeBytes_cursor k s hc]

theorem outputByte_of_lt (s : State) {k : Nat} (h : s.cursor.toNat + k < s.rate.toNat) :
    s.outputByte k = stateByte s.lanes (s.cursor.toNat + k) := by
  rw [outputByte_eq s (by omega), Nat.div_eq_of_lt h, Nat.mod_eq_of_lt h]
  rfl

/-! ### The published sponge (R127) -/

theorem paddedLanes_congr {s t : State} (h : sameCore s t) : paddedLanes s = paddedLanes t := by
  obtain ⟨hlanes, hcursor, hrate⟩ := h
  rw [paddedLanes, paddedLanes, hlanes, hcursor, hrate]

/-- From a fresh sponge `s`, a message absorbed and then FINAL's padding and permutation leave a state `t` whose output
stream is the published SHAKE of the message (R127). -/
theorem outputByte_eq_shakeByte (m : List Byte) {s t : State} (hc : s.cursor = 0)
    (hlanes : s.lanes = Vector.replicate 25 0) (h0 : 0 < s.rate.toNat) (hr : s.rate.toNat ≤ 200) (htc : t.cursor = 0)
    (htrate : t.rate = s.rate) (htlanes : t.lanes = keccakF (paddedLanes (s.absorbBytes m))) (k : Nat) :
    t.outputByte k = shakeByte s.rate.toNat m k := by
  have htc0 : t.cursor.toNat = 0 := congrArg BitVec.toNat htc
  rw [outputByte_eq t (by rwa [htc0, htrate]), htc0, Nat.zero_add, htrate, htlanes,
    keccakF_paddedLanes_absorbBytes m s hc h0 hr, hlanes, shakeByte]

end Sys2Proof.Machine
end

section
/-! SUPPORT. The commands of the sponge engine (R120 to R124): the argument, the phase table, what each leaves of the
window, and each as one loop. The statements of 42_sponge.md are assembled from these. -/

namespace Sys2Proof.Machine

open Sys2Proof.Reference

/-! ### The argument, and SINIT -/

theorem argument_eq_iff (s : State) {n : Nat} (hn : n < 2 ^ 32) : s.argument = n ↔ s.pendArg = BitVec.ofNat 32 n := by
  rw [State.argument, ← BitVec.toNat_inj, BitVec.toNat_ofNat, Nat.mod_eq_of_lt hn]

theorem variantRate_of_variant {n : Nat} (h : n = 128 ∨ n = 256) :
    variantRate n = some (if n = 128 then 168 else 136) := by
  rcases h with rfl | rfl <;> rfl

theorem variantRate_of_not_variant {n : Nat} (h1 : n ≠ 128) (h2 : n ≠ 256) : variantRate n = none := by
  rw [variantRate, if_neg h1, if_neg h2]

/-- SINIT with an argument that is no variant (R121, R164). -/
theorem exec_sinit_of_not_variant (s : State) (h1 : s.pendArg ≠ 128) (h2 : s.pendArg ≠ 256) :
    exec .sinit s = .next (s.complete .config) :=
  exec_sinit_config s (variantRate_of_not_variant (mt (argument_eq_iff s (by decide)).mp h1)
    (mt (argument_eq_iff s (by decide)).mp h2))

/-! ### The bytes of the window that a command leaves -/

/-- A byte of the window reads as before where ARG, the polynomial registers and the registers of its own region have
not changed (R51). -/
theorem windowByte_frame {s t : State} {a : Nat} (harg : t.arg = s.arg) (hpolys : t.polys = s.polys)
    (hstatus : ¬(0x000C ≤ a ∧ a < 0x0010)) (hrate : t.rate = s.rate ∨ ¬(0x0010 ≤ a ∧ a < 0x0014))
    (hlanes : t.lanes = s.lanes ∨ ¬(0x0100 ≤ a ∧ a < 0x01C8))
    (hiob : ∀ k (hk : k < 1024), a = 0x0400 + k → t.iob[k] = s.iob[k]) : t.windowByte a = s.windowByte a := by
  by_cases hbuf : 0x0400 ≤ a ∧ a < 0x0800
  · obtain ⟨k, rfl⟩ : ∃ k, a = 0x0400 + k := ⟨a - 0x0400, by omega⟩
    have hk : k < 1024 := by omega
    rw [windowByte_iobuf _ hk, windowByte_iobuf _ hk, hiob k hk rfl]
  · refine windowByte_congr (peek_congr harg hrate hstatus hlanes (fun w hw => ?_) fun _ _ _ => by rw [hpolys])
    have hoff := regionOf_offsets a
    rw [hw] at hoff
    simp only [Region.offsets] at hoff
    omega

/-! ### The phase table (R120) -/

/-- What R120 says of a command and its effect: the phase after it, and PROTOCOL, with no other change, exactly where
the table does not list it. -/
def FollowsPhaseTable (i : Instr) (s t : State) : Prop :=
  t.phase = phaseAfter i s.phase s.argument ∧ (phaseAllows i s.phase = false → t = s.complete .protocol) ∧
  (phaseAllows i s.phase = true → t.err ≠ .protocol)

section
variable {i : Instr} {s t : State}

theorem followsPhaseTable_of_allowed (hphase : t.phase = phaseAfter i s.phase s.argument)
    (hallow : phaseAllows i s.phase = true) (herr : t.err ≠ .protocol) : FollowsPhaseTable i s t :=
  ⟨hphase, fun h => absurd (hallow.symm.trans h) (by decide), fun _ => herr⟩

theorem followsPhaseTable_protocol (hphase : phaseAfter i s.phase s.argument = s.phase)
    (hallow : phaseAllows i s.phase = false) : FollowsPhaseTable i s (s.complete .protocol) :=
  ⟨hphase.symm, fun _ => rfl, fun h => absurd (hallow.symm.trans h) (by decide)⟩

end

/-- The ring commands follow the table and do not read PHASE (R120, R140). -/
theorem exec_ring_withPhase {i : Instr} (hi : i.destinations ≠ []) (s : State) :
    ∃ t, exec i s = .next t ∧ FollowsPhaseTable i s t ∧
      ∀ p, exec i { s with phase := p } = .next { t with phase := p } := by
  cases i with
  | permute => exact absurd rfl hi
  | sinit => exact absurd rfl hi
  | absorb => exact absurd rfl hi
  | final => exact absurd rfl hi
  | squeeze => exact absurd rfl hi
  | padd d a b =>
    exact ⟨_, exec_padd s d a b, followsPhaseTable_of_allowed rfl rfl nofun,
      fun p => exec_padd { s with phase := p } d a b⟩
  | pmul d a b =>
    exact ⟨_, exec_pmul s d a b, followsPhaseTable_of_allowed rfl rfl nofun,
      fun p => exec_pmul { s with phase := p } d a b⟩
  | pred d a =>
    exact ⟨_, exec_pred s d a, followsPhaseTable_of_allowed rfl rfl nofun,
      fun p => exec_pred { s with phase := p } d a⟩
  | p2r d e a =>
    by_cases hde : d = e
    · subst hde
      exact ⟨_, exec_p2r_same s d a, followsPhaseTable_of_allowed rfl rfl nofun,
        fun p => exec_p2r_same { s with phase := p } d a⟩
    · exact ⟨_, exec_p2r s d e a hde, followsPhaseTable_of_allowed rfl rfl nofun,
        fun p => exec_p2r { s with phase := p } d e a hde⟩

theorem exec_sinit_followsPhaseTable (s : State) : ∃ t, exec .sinit s = .next t ∧ FollowsPhaseTable .sinit s t := by
  by_cases hv : s.argument = 128 ∨ s.argument = 256
  · exact ⟨_, exec_sinit_ok s (variantRate_of_variant hv),
      followsPhaseTable_of_allowed (by simp [phaseAfter, hv]) rfl nofun⟩
  · obtain ⟨h1, h2⟩ := not_or.mp hv
    exact ⟨_, exec_sinit_config s (variantRate_of_not_variant h1 h2),
      followsPhaseTable_of_allowed (by simp [phaseAfter, h1, h2]) rfl nofun⟩

theorem exec_absorb_followsPhaseTable (s : State) :
    ∃ t, exec .absorb s = .next t ∧ FollowsPhaseTable .absorb s t := by
  by_cases hp : s.phase = .absorbing
  · have hallow : phaseAllows .absorb s.phase = true := by rw [hp]; rfl
    by_cases hn : s.argument ≤ 1024
    · exact ⟨_, exec_absorb_ok s hp hn, followsPhaseTable_of_allowed (absorbBytes_phase s _) hallow nofun⟩
    · exact ⟨_, exec_absorb_range s hp (by omega), followsPhaseTable_of_allowed rfl hallow nofun⟩
  · exact ⟨_, exec_absorb_protocol s hp, followsPhaseTable_protocol rfl (by simp [phaseAllows, hp])⟩

theorem exec_final_followsPhaseTable (s : State) : ∃ t, exec .final s = .next t ∧ FollowsPhaseTable .final s t := by
  by_cases hp : s.phase = .absorbing
  · exact ⟨_, exec_final_ok s hp, followsPhaseTable_of_allowed (by simp [phaseAfter, hp]) (by rw [hp]; rfl) nofun⟩
  · exact ⟨_, exec_final_protocol s hp,
      followsPhaseTable_protocol (by simp [phaseAfter, hp]) (by simp [phaseAllows, hp])⟩

theorem exec_squeeze_followsPhaseTable (s : State) :
    ∃ t, exec .squeeze s = .next t ∧ FollowsPhaseTable .squeeze s t := by
  by_cases hp : s.phase = .finalized ∨ s.phase = .squeezing
  · have hallow : phaseAllows .squeeze s.phase = true := by rcases hp with hp | hp <;> rw [hp] <;> rfl
    by_cases hn : s.argument ≤ 1024
    · refine ⟨_, exec_squeeze_ok s hp hn, followsPhaseTable_of_allowed ?_ hallow nofun⟩
      rcases hp with hp | hp <;> simp [phaseAfter, hp, hn]
    · refine ⟨_, exec_squeeze_range s hp (by omega), followsPhaseTable_of_allowed ?_ hallow nofun⟩
      rcases hp with hp | hp <;> simp [phaseAfter, hp, hn]
  · obtain ⟨h1, h2⟩ := not_or.mp hp
    exact ⟨_, exec_squeeze_protocol s h1 h2,
      followsPhaseTable_protocol (by simp [phaseAfter, h1]) (by simp [phaseAllows, h1, h2])⟩

/-- Every command answers a next state, and the phase table says which phase it has. -/
theorem exec_followsPhaseTable (i : Instr) (s : State) : ∃ t, exec i s = .next t ∧ FollowsPhaseTable i s t := by
  by_cases hring : i.destinations ≠ []
  · obtain ⟨t, ht, htable, -⟩ := exec_ring_withPhase hring s
    exact ⟨t, ht, htable⟩
  cases i with
  | permute => exact ⟨_, exec_permute s, followsPhaseTable_of_allowed rfl rfl nofun⟩
  | sinit => exact exec_sinit_followsPhaseTable s
  | absorb => exact exec_absorb_followsPhaseTable s
  | final => exact exec_final_followsPhaseTable s
  | squeeze => exact exec_squeeze_followsPhaseTable s
  | _ => exact absurd (by simp [Instr.destinations]) hring

/-! ### The bounds of R38, and the bytes ABSORB reads -/

/-- R38's bounds on the cursor and the rate while a sponge is open. -/
theorem State.SpongeInv.bounds {s : State} (h : s.SpongeInv) (hp : s.phase ≠ .idle) :
    s.cursor.toNat < s.rate.toNat ∧ s.rate.toNat ≤ 200 := by
  obtain ⟨-, hopen, -⟩ := h
  obtain ⟨hr, hc⟩ := hopen hp
  refine ⟨hc, ?_⟩
  rcases hr with hr | hr <;> rw [hr] <;> decide

theorem inputBytes_length (s : State) {n : Nat} (hn : n ≤ 1024) : (s.inputBytes n).length = n := by
  simp [State.inputBytes, hn]

theorem inputBytes_getD (s : State) (n j : Nat) : (s.inputBytes n).getD j 0 = if j < n then s.iob.getD j 0 else 0 := by
  by_cases hj : j < n
  · simp [State.inputBytes, hj, Vector.getD, Array.getD_eq_getD_getElem?]
  · simp [State.inputBytes, hj]

/-- The bytes that ABSORB of n bytes from CURSOR = c on changes in the lanes (R122, R129). -/
theorem stateByte_xorBytesAt_inputBytes (s : State) (A : Lanes) (c n : Nat) {i : Nat} (hi : i < 200) :
    stateByte (xorBytesAt A c (s.inputBytes n)) i =
      if c ≤ i ∧ i < c + n then stateByte A i ^^^ s.iob.getD (i - c) 0 else stateByte A i := by
  have hiff : c ≤ i ∧ i - c < n ↔ c ≤ i ∧ i < c + n := by omega
  rw [stateByte_xorBytesAt _ _ _ hi, inputBytes_getD, ← ite_and]
  simp only [hiff]
  split
  · rfl
  · exact BitVec.xor_zero

/-! ### The commands of an XOF, one by one (R81) -/

/-- ABSORB of a byte string put into the buffer first is its loop over that string, as far as the sponge goes. -/
theorem exec_absorb_withInput_sameCore (bs : List Byte) (s : State) (hp : s.phase = .absorbing)
    (h : bs.length ≤ 1024) :
    ∃ t, exec .absorb (withInput bs s) = .next t ∧ t.phase = .absorbing ∧ sameCore t (s.absorbBytes bs) := by
  obtain ⟨hlanes, hcursor, hrate⟩ := absorbBytes_congr bs (withInput_sameCore bs s)
  refine ⟨_, exec_absorb_withInput bs s hp h, ?_, hlanes, hcursor, hrate⟩
  rw [complete_phase, absorbBytes_phase, withInput_phase, hp]

theorem sameCore.trans {s t u : State} (h : sameCore s t) (k : sameCore t u) : sameCore s u := by
  obtain ⟨h1, h2, h3⟩ := h
  obtain ⟨k1, k2, k3⟩ := k
  exact ⟨h1.trans k1, h2.trans k2, h3.trans k3⟩

/-- ABSORB of byte strings one after another is the loop over all their bytes, however they are cut (R125). -/
theorem absorbAll_sameCore (cs : List (List Byte)) (s : State) (hp : s.phase = .absorbing)
    (hcs : ∀ c ∈ cs, c.length ≤ 1024) :
    ∃ t, absorbAll cs s = .next t ∧ t.phase = .absorbing ∧ sameCore t (s.absorbBytes cs.flatten) := by
  induction cs generalizing s with
  | nil => exact ⟨s, rfl, hp, rfl, rfl, rfl⟩
  | cons c cs ih =>
    obtain ⟨v, hv, hvp, hvc⟩ := exec_absorb_withInput_sameCore c s hp (hcs c (by simp))
    obtain ⟨t, ht, htp, htc⟩ := ih v hvp fun d hd => hcs d (by simp [hd])
    refine ⟨t, ?_, htp, ?_⟩
    · rw [absorbAll, hv, andThen_next, ht]
    · rw [List.flatten_cons, absorbBytes_append]
      exact htc.trans (absorbBytes_congr _ hvc)

/-- SINIT of a variant opens a fresh sponge at the variant's rate (R121). -/
theorem exec_sinit_withArgument (s : State) {v : Nat} (hv : v = 128 ∨ v = 256) :
    ∃ t, exec .sinit (withArgument v s) = .next t ∧ t.phase = .absorbing ∧ t.cursor = 0 ∧
      t.lanes = Vector.replicate 25 0 ∧ t.rate.toNat = if v = 128 then 168 else 136 := by
  have harg : (withArgument v s).argument = v := withArgument_argument v s (by omega)
  refine ⟨_, exec_sinit_ok _ ((congrArg variantRate harg).trans (variantRate_of_variant hv)), rfl, rfl, rfl, ?_⟩
  rcases hv with rfl | rfl <;> rfl

/-- FINAL opens the squeeze side at the start of a block, on the permuted padding (R123). -/
theorem exec_final_sponge (s : State) (hp : s.phase = .absorbing) :
    ∃ t, exec .final s = .next t ∧ t.phase = .finalized ∧ t.cursor = 0 ∧ t.rate = s.rate ∧
      t.lanes = keccakF (paddedLanes s) :=
  ⟨_, exec_final_ok s hp, rfl, rfl, rfl, rfl⟩

theorem withArgument_sameCore (n : Nat) (s : State) : sameCore (withArgument n s) s := ⟨rfl, rfl, rfl⟩

/-- SQUEEZE of n bytes: its loop, and phase SQUEEZING (R124). -/
theorem exec_squeeze_withArgument (s : State) {n : Nat} (hp : s.phase = .finalized ∨ s.phase = .squeezing)
    (hn : n ≤ 1024) : ∃ t, exec .squeeze (withArgument n s) = .next t ∧ t.phase = .squeezing ∧
      sameCore t (s.squeezeBytes n) ∧ ∀ k (hk : k < 1024), k < n → t.iob[k] = s.outputByte k := by
  have harg : (withArgument n s).argument = n := withArgument_argument n s (by omega)
  have h := exec_squeeze_ok (withArgument n s) hp (by rwa [harg])
  rw [harg] at h
  refine ⟨_, h, rfl, squeezeBytes_congr n (withArgument_sameCore n s), fun k hk hkn => ?_⟩
  rw [← outputByte_congr (withArgument_sameCore n s) k]
  exact (squeezeBytes_iob_getElem (withArgument n s) n hk).trans (if_pos hkn)

end Sys2Proof.Machine
end

section
/-! The statements of 42_sponge.md, settled. -/

namespace Sys2Proof.Machine

open Sys2Proof.Reference

/-- Settles O27: every command follows the phase table; SINIT's other error and the ring commands apart. -/
theorem phaseTransitions : Obligations.PhaseTransitions := by
  intro i s
  obtain ⟨t, ht, hphase, hdeny, hallow⟩ := exec_followsPhaseTable i s
  refine ⟨t, ht, hphase, hdeny, hallow, fun hi h1 h2 => ?_, fun hi => ?_, fun hi p => ?_⟩
  · subst hi
    cases ht.symm.trans (exec_sinit_of_not_variant s h1 h2)
    rfl
  · subst hi
    cases ht.symm.trans (exec_permute s)
    rfl
  · obtain ⟨u, hu, -, hany⟩ := exec_ring_withPhase hi s
    cases ht.symm.trans hu
    exact hany p

/-- Settles O28: SINIT on its two paths. -/
theorem sinitRule : Obligations.SinitRule := by
  refine ⟨by decide, fun s => ?_⟩
  by_cases hv : s.pendArg = 128 ∨ s.pendArg = 256
  · have h128 : s.argument = 128 ↔ s.pendArg = 128 := argument_eq_iff s (by decide)
    have h256 : s.argument = 256 ↔ s.pendArg = 256 := argument_eq_iff s (by decide)
    have h := exec_sinit_ok s (variantRate_of_variant (by rwa [h128, h256]))
    refine ⟨_, h, fun _ => ?_, fun h1 h2 => absurd hv (not_or.mpr ⟨h1, h2⟩)⟩
    refine ⟨fun i => by simp, by simp only [complete_rate, h128], rfl, rfl, rfl, rfl, rfl, rfl, rfl, rfl, rfl,
      exec_sameControl h, fun a hrate hlanes hstatus => ?_⟩
    exact windowByte_frame rfl rfl hstatus (.inr hrate) (.inr hlanes) fun _ _ _ => rfl
  · obtain ⟨h1, h2⟩ := not_or.mp hv
    exact ⟨_, exec_sinit_of_not_variant s h1 h2, fun h => absurd h hv, fun _ _ => rfl⟩

/-- Settles O29: where ABSORB's loop leaves the cursor, and what it writes. -/
theorem absorbCompletes : Obligations.AbsorbCompletes := by
  intro s hs hp hn
  obtain ⟨hc, -⟩ := hs.bounds (by simp [hp])
  have h := exec_absorb_ok s hp hn
  have hcursor := absorbBytes_cursor (s.inputBytes s.argument) s hc
  rw [inputBytes_length s (n := s.argument) hn] at hcursor
  obtain ⟨A, c, r, i, n, e⟩ := absorbBytes_frame (s.inputBytes s.argument) s
  rw [e] at h hcursor
  exact ⟨_, h, rfl, rfl, hcursor, rfl, hp, rfl, rfl, exec_sameControl h,
    sameWindowOutside_of rfl rfl (.inr ⟨by decide, by decide⟩) rfl (fun _ _ _ => rfl) (by decide) (by decide)⟩

/-- Settles O30: ABSORB's loop up to the end of the block, with the bytes it XORs. -/
theorem absorbWithinBlock : Obligations.AbsorbWithinBlock := by
  intro s hs hp hn hle
  obtain ⟨hc, hr⟩ := hs.bounds (by simp [hp])
  have hlen : (s.inputBytes s.argument).length = s.pendArg.toNat := inputBytes_length s hn
  have hlanes := absorbBytes_lanes_of_le (s.inputBytes s.argument) s hc hr (by rwa [hlen])
  have hcursor := absorbBytes_cursor (s.inputBytes s.argument) s hc
  rw [hlen] at hlanes hcursor
  refine ⟨xorBytesAt s.lanes s.cursor.toNat (s.inputBytes s.argument), _, exec_absorb_ok s hp hn, fun i hi => ?_,
    fun hlt => ⟨?_, ?_⟩, fun heq => ⟨?_, ?_⟩⟩
  · exact stateByte_xorBytesAt_inputBytes s _ _ _ hi
  · exact hlanes.trans (if_neg hlt.ne)
  · exact hcursor.trans (Nat.mod_eq_of_lt hlt)
  · exact hlanes.trans (if_pos heq)
  · exact BitVec.eq_of_toNat_eq (hcursor.trans (by rw [heq, Nat.mod_self]; rfl))

/-- Settles O31: both sides are the loop over the same bytes. -/
theorem absorbIsAssociative : Obligations.AbsorbIsAssociative := by
  refine fun s hp => ⟨fun m1 m2 hlen => ?_, fun cs ds hcs hds heq => ?_⟩
  · obtain ⟨v, hv, hvp, hvc⟩ := exec_absorb_withInput_sameCore m1 s hp (by omega)
    obtain ⟨t, ht, -, htc⟩ := exec_absorb_withInput_sameCore m2 v hvp (by omega)
    obtain ⟨u, hu, -, hulanes, hucursor, -⟩ :=
      exec_absorb_withInput_sameCore (m1 ++ m2) s hp (by rwa [List.length_append])
    obtain ⟨hlanes, hcursor, -⟩ := htc.trans (absorbBytes_congr m2 hvc)
    rw [absorbBytes_append] at hulanes hucursor
    exact ⟨t, u, by rw [hv, andThen_next, ht], hu, hlanes.trans hulanes.symm, hcursor.trans hucursor.symm⟩
  · obtain ⟨t, ht, -, hlanes, hcursor, -⟩ := absorbAll_sameCore cs s hp hcs
    obtain ⟨u, hu, -, hulanes, hucursor, -⟩ := absorbAll_sameCore ds s hp hds
    rw [heq] at hlanes hcursor
    exact ⟨t, u, ht, hu, hlanes.trans hulanes.symm, hcursor.trans hucursor.symm⟩

/-- Settles O32: FINAL's padded lanes byte by byte. -/
theorem finalResult : Obligations.FinalResult := by
  intro s hs hp
  obtain ⟨hc, hr⟩ := hs.bounds (by simp [hp])
  have h := exec_final_ok s hp
  exact ⟨paddedLanes s, _, h, rfl, fun i _ => stateByte_paddedLanes s hc hr i, rfl, rfl, rfl, rfl, rfl, rfl, rfl,
    exec_sameControl h,
    sameWindowOutside_of rfl rfl (.inr ⟨by decide, by decide⟩) rfl (fun _ _ _ => rfl) (by decide) (by decide)⟩

/-- Settles O33: where SQUEEZE's loop leaves the cursor, and what it writes. -/
theorem squeezeCompletes : Obligations.SqueezeCompletes := by
  intro s hs hp hn
  obtain ⟨hc, -⟩ := hs.bounds (by rcases hp with hp | hp <;> simp [hp])
  have h := exec_squeeze_ok s hp hn
  have hcursor := squeezeBytes_cursor s.argument s hc
  have hiob : ∀ k (hk : k < 1024), s.argument ≤ k → (s.squeezeBytes s.argument).iob[k] = s.iob[k] :=
    fun k hk hle => (squeezeBytes_iob_getElem s _ hk).trans (if_neg (by omega))
  obtain ⟨A, c, r, i, d, b, e, -⟩ := squeezeBytes_frame s.argument s
  rw [e] at h hcursor hiob
  refine ⟨_, h, rfl, rfl, rfl, hcursor, rfl, rfl, fun k hk => hiob k k.isLt hk, exec_sameControl h,
    fun a hbuf hlanes hstatus => ?_⟩
  refine windowByte_frame rfl rfl hstatus (.inl rfl) (.inr hlanes) fun k hk ha => hiob k hk ?_
  rw [State.argument]
  omega

/-- Settles O34: the output stream within the block, and the lanes after it. -/
theorem squeezeWithinBlock : Obligations.SqueezeWithinBlock := by
  intro s hs hp hn hle
  obtain ⟨hc, -⟩ := hs.bounds (by rcases hp with hp | hp <;> simp [hp])
  have hlanes : (s.squeezeBytes s.argument).lanes = _ := squeezeBytes_lanes s.pendArg.toNat s hc
  have hcursor : (s.squeezeBytes s.argument).cursor.toNat = _ := squeezeBytes_cursor s.pendArg.toNat s hc
  refine ⟨_, exec_squeeze_ok s hp hn, fun k hk => ?_, fun hlt => ⟨?_, ?_⟩, fun heq => ⟨?_, ?_⟩⟩
  · rw [← outputByte_of_lt s (by omega)]
    exact (squeezeBytes_iob_getElem s s.pendArg.toNat k.isLt).trans (if_pos hk)
  · rw [Nat.div_eq_of_lt hlt] at hlanes
    exact hlanes
  · rw [Nat.mod_eq_of_lt hlt] at hcursor
    exact hcursor
  · rw [heq, Nat.div_self (by omega)] at hlanes
    exact hlanes
  · rw [heq, Nat.mod_self] at hcursor
    exact BitVec.eq_of_toNat_eq hcursor

/-- Settles O35: the two buffer reads are two parts of one output stream. -/
theorem squeezePrefixProperty : Obligations.SqueezePrefixProperty := by
  intro s l1 l2 hp h12 h2
  obtain ⟨t, ht, htp, htc, htb⟩ := exec_squeeze_withArgument s hp (h12.trans h2)
  obtain ⟨u, hu, -, huc, hub⟩ := exec_squeeze_withArgument t (.inr htp) (show l2 - l1 ≤ 1024 by omega)
  obtain ⟨v, hv, -, hvc, hvb⟩ := exec_squeeze_withArgument s hp h2
  have hstream : t.outputByte = fun k => s.outputByte (l1 + k) :=
    funext fun k => (outputByte_congr htc k).trans (outputByte_squeezeBytes s l1 k)
  have hsum : l1 + (l2 - l1) = l2 := by omega
  have hcore := (huc.trans (squeezeBytes_congr _ htc)).trans (squeezeBytes_squeezeBytes_sameCore s l1 (l2 - l1))
  rw [hsum] at hcore
  obtain ⟨hulanes, hucursor, -⟩ := hcore
  obtain ⟨hvlanes, hvcursor, -⟩ := hvc
  refine ⟨t, u, v, ht, hu, hv, ?_, hulanes.trans hvlanes.symm, hucursor.trans hvcursor.symm⟩
  calc t.iob.toList.take l1 ++ u.iob.toList.take (l2 - l1)
    _ = (List.range l1).map s.outputByte ++ (List.range (l2 - l1)).map t.outputByte := by
        rw [iob_take_eq_map_range (h12.trans h2) htb, iob_take_eq_map_range (by omega) hub]
    _ = (List.range (l1 + (l2 - l1))).map s.outputByte := by
        rw [List.range_add, List.map_append, List.map_map, hstream]
        rfl
    _ = v.iob.toList.take l2 := by rw [hsum, iob_take_eq_map_range h2 hvb]

/-- Settles O36: what ABSORB and FINAL leave is the padded message absorbed block by block, and SQUEEZE reads its
output stream from there. -/
theorem xofIsShake : Obligations.XofIsShake := by
  intro v cs n s hv hcs hn
  obtain ⟨s1, h1, hp1, hc1, hlanes1, hrate1⟩ := exec_sinit_withArgument s hv
  obtain ⟨s2, h2, hp2, hcore2⟩ := absorbAll_sameCore cs s1 hp1 hcs
  obtain ⟨-, -, hrate2⟩ := id hcore2
  obtain ⟨s3, h3, hp3, hc3, hrate3, hlanes3⟩ := exec_final_sponge s2 hp2
  obtain ⟨t, h4, -, -, hiob⟩ := exec_squeeze_withArgument s3 (.inl hp3) hn
  have hbounds : 0 < s1.rate.toNat ∧ s1.rate.toNat ≤ 200 := by rw [hrate1]; split <;> decide
  refine ⟨t, ?_, fun k hk => ?_⟩
  · rw [xofCommands, h1, andThen_next, h2, andThen_next, h3, andThen_next, h4]
  · rw [← hrate1, Fin.getElem_fin, hiob k k.isLt hk]
    refine outputByte_eq_shakeByte cs.flatten hc1 hlanes1 hbounds.1 hbounds.2 hc3 ?_ ?_ k
    · rw [hrate3, hrate2, absorbBytes_rate]
    · rw [hlanes3, paddedLanes_congr hcore2]

end Sys2Proof.Machine
end

section
/-! SUPPORT. What the ring commands leave (R140 to R145): the registers they write, the frame of that write, and their
words. The statements of 43_ring.md are assembled from these and from the negacyclic product. -/

namespace Sys2Proof.Machine

open Sys2Proof.Reference

/-! ### The frame of a register write and of a command's end -/

/-- Writing P[d] changes no byte of the window outside P[d] (R51, R54). -/
theorem setPoly_sameWindowOutside (s : State) (d : PReg) (v : Poly) :
    sameWindowOutside s (s.setPoly d v) (0x2000 + 0x400 * d.val) (0x2400 + 0x400 * d.val) := by
  refine sameWindowOutside_of rfl rfl (.inl rfl) rfl (fun p k hout => ?_) (by omega) (by omega)
  have hp : p ≠ d := by rintro rfl; omega
  exact congrArg (fun w : Poly => w[k]) ((setPoly_polys_getElem s d p v).trans (if_neg hp))

/-- The end of a command changes no byte of the window but STATUS (R33). -/
theorem windowByte_complete (s : State) (c : ErrCode) {a : Nat} (hstatus : ¬(0x000C ≤ a ∧ a < 0x0010)) :
    (s.complete c).windowByte a = s.windowByte a :=
  windowByte_frame rfl rfl hstatus (.inl rfl) (.inl rfl) fun _ _ _ => rfl

/-! ### The result of PADD, PMUL and PRED -/

theorem polyOf_reduce_toInt (c : Coeffs) (k : Fin 256) : (polyOf fun i => reduce (c i))[k].toInt = reduce (c k) := by
  rw [polyOf_getElem, toInt_word32_reduce]

/-- A register of reduced coefficients is canonical (R39, R140). -/
theorem canonical_polyOf_reduce (c : Coeffs) : Canonical (polyOf fun i => reduce (c i)) := fun k => by
  rw [polyOf_reduce_toInt]
  exact ⟨reduce_nonneg _, reduce_lt _⟩

/-- `t` is `s` after a ring command that has written the canonical representatives of the integers `c` to P[d]: the
result, and what stays (R140 to R143). -/
def WritesReduced (s : State) (d : PReg) (c : Coeffs) (t : State) : Prop :=
  (∀ k : Fin 256, t.polys[d][k].toInt = c k % 8380417) ∧
  Canonical t.polys[d] ∧ (∀ p : PReg, p ≠ d → t.polys[p] = s.polys[p]) ∧
  t.err = .ok ∧ t.busy = false ∧ t.iob = s.iob ∧ sameSponge s t ∧ sameControl s t ∧
  sameWindowOutside s t (0x2000 + 0x400 * d.val) (0x2400 + 0x400 * d.val)

theorem writesReduced_setPoly (s : State) (d : PReg) (c : Coeffs) :
    WritesReduced s d c ((s.setPoly d (polyOf fun k => reduce (c k))).complete .ok) := by
  have hpolys := fun p => complete_setPoly_polys_getElem s d p (polyOf fun k => reduce (c k)) .ok
  have hd := (hpolys d).trans (if_pos rfl)
  refine ⟨fun k => ?_, ?_, fun p hp => (hpolys p).trans (if_neg hp), rfl, rfl, rfl, ⟨rfl, rfl, rfl, rfl, rfl, rfl, rfl⟩,
    ⟨rfl, rfl, rfl, rfl, rfl, rfl, rfl⟩, fun a ha hstatus => ?_⟩
  · exact (congrArg (fun v : Poly => v[k].toInt) hd).trans (polyOf_reduce_toInt c k)
  · rw [hd]
    exact canonical_polyOf_reduce c
  · exact (windowByte_complete _ _ hstatus).trans (setPoly_sameWindowOutside s d _ a ha hstatus)

theorem exec_padd_writesReduced (s : State) (d a b : PReg) : ∃ t, exec (.padd d a b) s = .next t ∧
    WritesReduced s d (fun k => s.polys[a][k].toInt + s.polys[b][k].toInt) t :=
  ⟨_, exec_padd s d a b, writesReduced_setPoly s d _⟩

theorem exec_pmul_writesReduced (s : State) (d a b : PReg) : ∃ t, exec (.pmul d a b) s = .next t ∧
    WritesReduced s d (negacyclic (coeffsOf s.polys[a]) (coeffsOf s.polys[b])) t :=
  ⟨_, exec_pmul s d a b, writesReduced_setPoly s d _⟩

theorem exec_pred_writesReduced (s : State) (d a : PReg) : ∃ t, exec (.pred d a) s = .next t ∧
    WritesReduced s d (fun k => s.polys[a][k].toInt) t :=
  ⟨_, exec_pred s d a, writesReduced_setPoly s d _⟩

/-- Two commands that write integers of the same residues leave the same register, whichever register it is
(R140, R145). -/
theorem WritesReduced.poly_eq {s s' t t' : State} {d d' : PReg} {c c' : Coeffs} (h : WritesReduced s d c t)
    (h' : WritesReduced s' d' c' t') (hc : ∀ k, c k % 8380417 = c' k % 8380417) : t.polys[d] = t'.polys[d'] := by
  obtain ⟨hk, -⟩ := h
  obtain ⟨hk', -⟩ := h'
  refine Vector.ext fun k hlt => BitVec.eq_of_toInt_eq ?_
  calc t.polys[d][k].toInt = c ⟨k, hlt⟩ % 8380417 := hk ⟨k, hlt⟩
    _ = c' ⟨k, hlt⟩ % 8380417 := hc ⟨k, hlt⟩
    _ = t'.polys[d'][k].toInt := (hk' ⟨k, hlt⟩).symm

/-! ### The power2round split -/

/-- The two parts make up the coefficient exactly, the low part in [0, 8191] (R144). -/
theorem highPart_lowPart (t : Int) : 0 ≤ lowPart t ∧ lowPart t ≤ 8191 ∧ highPart t * 8192 + lowPart t = t := by
  simp only [lowPart, highPart, Config.D]
  omega

/-- The low part's word is the coefficient's low 13 bits (R144). -/
theorem word32_lowPart (w : Word) : word32 (lowPart w.toInt) = w &&& 0x1FFF := by
  have hmask : (w &&& 0x1FFF).toNat = w.toNat % 8192 := Nat.and_two_pow_sub_one_eq_mod w.toNat 13
  have hlow : lowPart w.toInt = (w.toNat % 8192 : Nat) := by
    have hw := BitVec.toInt_eq_toNat_cond w
    simp only [lowPart, Config.D]
    split at hw <;> omega
  apply BitVec.eq_of_toNat_eq
  rw [word32, hlow, hmask, BitVec.ofInt_natCast, BitVec.toNat_ofNat]
  omega

theorem toInt_word32_lowPart (w : Word) : (word32 (lowPart w.toInt)).toInt = lowPart w.toInt := by
  have := highPart_lowPart w.toInt
  exact toInt_word32 _ (by omega) (by omega)

theorem toInt_word32_highPart (w : Word) : (word32 (highPart w.toInt)).toInt = highPart w.toInt := by
  have := highPart_lowPart w.toInt
  have := word_toInt_bounds w
  exact toInt_word32 _ (by omega) (by omega)

/-- The two words that P2R makes of a coefficient word (R144). -/
theorem splitWords_spec (w : Word) :
    0 ≤ (word32 (lowPart w.toInt)).toInt ∧ (word32 (lowPart w.toInt)).toInt ≤ 8191 ∧
    (word32 (highPart w.toInt)).toInt * 8192 + (word32 (lowPart w.toInt)).toInt = w.toInt ∧
    word32 (lowPart w.toInt) = w &&& 0x1FFF ∧
    (0 ≤ w.toInt → w.toInt < 8380417 →
      0 ≤ (word32 (highPart w.toInt)).toInt ∧ (word32 (highPart w.toInt)).toInt ≤ 1023) := by
  obtain ⟨hlow, hlow', hsplit⟩ := highPart_lowPart w.toInt
  rw [toInt_word32_lowPart, toInt_word32_highPart]
  exact ⟨hlow, hlow', hsplit, word32_lowPart w, fun h0 hQ => by omega⟩

/-- P2R with two destinations writes the high parts to P[d] and the low parts to P[e]; everything but these, ERR and
BUSY stays (R144). -/
theorem exec_p2r_writes (s : State) {d e : PReg} (a : PReg) (hde : d ≠ e) : ∃ t, exec (.p2r d e a) s = .next t ∧
    t.polys[d] = (polyOf fun k => highPart s.polys[a][k].toInt) ∧
    t.polys[e] = (polyOf fun k => lowPart s.polys[a][k].toInt) ∧
    (∀ p : PReg, p ≠ d → p ≠ e → t.polys[p] = s.polys[p]) ∧
    t.err = .ok ∧ t.busy = false ∧ t.iob = s.iob ∧ sameSponge s t ∧ sameControl s t ∧
    ∀ x, ¬(0x2000 + 0x400 * d.val ≤ x ∧ x < 0x2400 + 0x400 * d.val) →
      ¬(0x2000 + 0x400 * e.val ≤ x ∧ x < 0x2400 + 0x400 * e.val) → ¬(0x000C ≤ x ∧ x < 0x0010) →
      t.windowByte x = s.windowByte x := by
  have hhigh := fun p => setPoly_polys_getElem s d p (polyOf fun k => highPart s.polys[a][k].toInt)
  have hlow := fun p => complete_setPoly_polys_getElem (s.setPoly d (polyOf fun k => highPart s.polys[a][k].toInt)) e p
    (polyOf fun k => lowPart s.polys[a][k].toInt) .ok
  refine ⟨_, exec_p2r s d e a hde, ?_, ?_, fun p hpd hpe => ?_, rfl, rfl, rfl, ⟨rfl, rfl, rfl, rfl, rfl, rfl, rfl⟩,
    ⟨rfl, rfl, rfl, rfl, rfl, rfl, rfl⟩, fun x hd he hstatus => ?_⟩
  · exact ((hlow d).trans (if_neg hde)).trans ((hhigh d).trans (if_pos rfl))
  · exact (hlow e).trans (if_pos rfl)
  · exact ((hlow p).trans (if_neg hpe)).trans ((hhigh p).trans (if_neg hpd))
  · exact (windowByte_complete _ _ hstatus).trans ((setPoly_sameWindowOutside _ e _ x he hstatus).trans
      (setPoly_sameWindowOutside s d _ x hd hstatus))

/-! ### The words of the ring commands -/

theorem encode_padd (d a b : PReg) : encode (.padd d a b) =
    0x10 ||| BitVec.ofNat 32 d.val <<< 8 ||| BitVec.ofNat 32 a.val <<< 11 ||| BitVec.ofNat 32 b.val <<< 14 := by
  simp [encode, Instr.opcode, Instr.operandBits, regBits, BitVec.or_assoc]

theorem encode_pmul (d a b : PReg) : encode (.pmul d a b) =
    0x11 ||| BitVec.ofNat 32 d.val <<< 8 ||| BitVec.ofNat 32 a.val <<< 11 ||| BitVec.ofNat 32 b.val <<< 14 := by
  simp [encode, Instr.opcode, Instr.operandBits, regBits, BitVec.or_assoc]

theorem encode_pred (d a : PReg) : encode (.pred d a) =
    0x12 ||| BitVec.ofNat 32 d.val <<< 8 ||| BitVec.ofNat 32 a.val <<< 11 := by
  simp [encode, Instr.opcode, Instr.operandBits, regBits, BitVec.or_assoc]

theorem encode_p2r (d e a : PReg) : encode (.p2r d e a) =
    0x13 ||| BitVec.ofNat 32 d.val <<< 8 ||| BitVec.ofNat 32 a.val <<< 11 ||| BitVec.ofNat 32 e.val <<< 17 := by
  simp [encode, Instr.opcode, Instr.operandBits, regBits, BitVec.or_assoc]

/-- P2R's word with D = E is the third reject of R78. -/
theorem decode_encode_p2r_same (d a : PReg) : decode (encode (.p2r d d a)) = .reject .p2rSameDestination := by
  obtain ⟨hrsv, hop, hd, -, he⟩ := encode_eq_and_usedMask_iff.mp (encode_and_usedMask (.p2r d d a)).symm
  simp [decode, decodeOp, hrsv, hop, hd, he, Instr.opcode]

end Sys2Proof.Machine
end

section
/-! SUPPORT. The negacyclic product (R142): the two loops of the spec and the sum of the model are one double sum, which is
commutative, depends on residues only, shifts by a monomial, and is the product modulo X^256 + 1. -/

namespace Sys2Proof.Machine

open Sys2Proof.Reference

/-- What the product of the coefficients i and j adds to each coefficient of the result: it lands at (i + j) mod 256,
negated where it wraps (R142). -/
def wrapTerm (a b : Coeffs) (i j : Fin 256) : Coeffs := fun k =>
  if k = i + j then (if i.val + j.val < 256 then a i * b j else -(a i * b j)) else 0

theorem wrapTerm_swap (a b : Coeffs) (i j k : Fin 256) : wrapTerm a b i j k = wrapTerm b a j i k := by
  simp only [wrapTerm, add_comm, mul_comm]

theorem pmulInner_eq_add_wrapTerm (a b : Coeffs) (i j : Fin 256) (c : Coeffs) (k : Fin 256) :
    pmulInner a b i j c k = c k + wrapTerm a b i j k := by
  have hk : k = i + j ↔ k.val = if i.val + j.val < 256 then i.val + j.val else i.val + j.val - 256 := by
    rw [Fin.ext_iff, Fin.val_add]
    split <;> omega
  by_cases hwrap : i.val + j.val < 256
  · simp only [pmulInner, wrapTerm, hk, if_pos hwrap]
    split <;> ring
  · simp only [pmulInner, wrapTerm, hk, if_neg hwrap]
    split <;> ring

/-- A loop whose every turn adds to each coefficient adds the sum of what its turns add. -/
theorem foldl_apply_eq_add_sum {turn : Coeffs → Fin 256 → Coeffs} {f : Fin 256 → Coeffs}
    (hturn : ∀ c i k, turn c i k = c k + f i k) (l : List (Fin 256)) (c : Coeffs) (k : Fin 256) :
    l.foldl turn c k = c k + (l.map fun i => f i k).sum := by
  induction l generalizing c with
  | nil => simp
  | cons i l ih => rw [List.foldl_cons, ih, hturn, List.map_cons, List.sum_cons, add_assoc]

/-- R142's two loops as one double sum. -/
theorem pmulLoop_eq_sum (a b : Coeffs) (k : Fin 256) : pmulLoop a b k = ∑ i, ∑ j, wrapTerm a b i j k := by
  have hinner : ∀ c i k, (List.finRange 256).foldl (fun c j => pmulInner a b i j c) c k =
      c k + ∑ j, wrapTerm a b i j k := fun c i k => by
    rw [foldl_apply_eq_add_sum (fun c j k => pmulInner_eq_add_wrapTerm a b i j c k), Fin.sum_univ_def]
  rw [pmulLoop, foldl_apply_eq_add_sum (f := fun i k => ∑ j, wrapTerm a b i j k) hinner, Fin.sum_univ_def, zero_add]

/-- The model's sum as the same double sum: for each i and k one j contributes, k - i. -/
theorem negacyclic_eq_sum (a b : Coeffs) (k : Fin 256) : negacyclic a b k = ∑ i, ∑ j, wrapTerm a b i j k := by
  rw [negacyclic, ← Fin.sum_univ_def]
  refine Finset.sum_congr rfl fun i _ => ?_
  have hk : ∀ j, k = i + j ↔ j = k - i := fun j => by rw [eq_sub_iff_add_eq', eq_comm]
  have hwrap : i.val + (k - i).val < 256 ↔ i ≤ k := by
    rw [Fin.le_def, Fin.val_sub]
    omega
  simp only [wrapTerm, hk, Finset.sum_ite_eq', Finset.mem_univ, if_true, hwrap]

theorem pmulLoop_eq_negacyclic (a b : Coeffs) : pmulLoop a b = negacyclic a b :=
  funext fun k => (pmulLoop_eq_sum a b k).trans (negacyclic_eq_sum a b k).symm

theorem negacyclic_comm (a b : Coeffs) : negacyclic a b = negacyclic b a := by
  funext k
  rw [negacyclic_eq_sum, negacyclic_eq_sum, Finset.sum_comm]
  simp only [wrapTerm_swap a b]

/-- The product's residues depend on the factors' residues only (R146 b). -/
theorem negacyclic_modEq {n : Int} {a a' b b' : Coeffs} (ha : ∀ i, a i ≡ a' i [ZMOD n]) (hb : ∀ j, b j ≡ b' j [ZMOD n])
    (k : Fin 256) : negacyclic a b k ≡ negacyclic a' b' k [ZMOD n] := by
  refine Int.ModEq.listSum_map fun i _ => ?_
  have hmul := (ha i).mul (hb (k - i))
  split
  · exact hmul
  · exact hmul.neg

/-- The product with the monomial X^m moves each coefficient up by m, negated where it wraps (R142). -/
theorem negacyclic_monomial (a : Coeffs) {b : Coeffs} {m : Fin 256} (hb : ∀ j, b j = if j = m then 1 else 0)
    (k : Fin 256) : negacyclic a b k = if k - m ≤ k then a (k - m) else -a (k - m) := by
  have hi : ∀ i, k - i = m ↔ i = k - m := fun i => by rw [sub_eq_iff_eq_add, eq_sub_iff_add_eq', eq_comm]
  rw [negacyclic, ← Fin.sum_univ_def, Finset.sum_eq_single (k - m)]
  · simp [hb]
  · intro i _ hne
    simp [hb, hi, hne]
  · simp

/-! ### The product modulo X^256 + 1 -/

section
variable {S : Type} [CommRing S] (x : S)

/-- The polynomial of 256 integers at a point of a ring; at X, over the integers mod Q, it is the register's
polynomial (R1). -/
def valueAt (c : Coeffs) : S := ∑ k, (c k : S) * x ^ k.val

theorem valueAt_sum (f : Fin 256 → Coeffs) : valueAt x (fun k => ∑ i, f i k) = ∑ i, valueAt x (f i) := by
  simp only [valueAt, Int.cast_sum, Finset.sum_mul]
  exact Finset.sum_comm

theorem valueAt_negacyclic (a b : Coeffs) :
    valueAt x (negacyclic a b) = ∑ i, ∑ j, valueAt x (wrapTerm a b i j) := by
  have hsum : negacyclic a b = fun k => ∑ i, ∑ j, wrapTerm a b i j k := funext (negacyclic_eq_sum a b)
  rw [hsum, valueAt_sum x fun i k => ∑ j, wrapTerm a b i j k]
  exact Finset.sum_congr rfl fun i _ => valueAt_sum x _

theorem valueAt_wrapTerm (a b : Coeffs) (i j : Fin 256) : valueAt x (wrapTerm a b i j) =
    ((if i.val + j.val < 256 then a i * b j else -(a i * b j) : Int) : S) * x ^ (i + j).val := by
  rw [valueAt, Finset.sum_eq_single (i + j)]
  · rw [wrapTerm, if_pos rfl]
  · intro k _ hne
    rw [wrapTerm, if_neg hne, Int.cast_zero, zero_mul]
  · exact fun h => absurd (Finset.mem_univ _) h

-- The power stands as a variable, so that no comparison of terms unfolds it.
section
variable {y : S} (hy : x ^ 256 = y)
include hy

/-- A product of two terms differs from the term it lands in by a multiple of x^256 + 1. -/
theorem dvd_term_mul_term_sub (a b : Coeffs) (i j : Fin 256) :
    y + 1 ∣ (a i : S) * x ^ i.val * ((b j : S) * x ^ j.val) - valueAt x (wrapTerm a b i j) := by
  rw [valueAt_wrapTerm]
  by_cases hwrap : i.val + j.val < 256
  · have hval : (i + j).val = i.val + j.val := by rw [Fin.val_add]; omega
    rw [if_pos hwrap, hval, Int.cast_mul, pow_add, mul_mul_mul_comm, sub_self]
    exact dvd_zero _
  · have hval : i.val + j.val = (i + j).val + 256 := by rw [Fin.val_add]; omega
    have hpow : x ^ i.val * x ^ j.val = x ^ (i + j).val * y := by rw [← hy, ← pow_add, ← pow_add, hval]
    rw [if_neg hwrap, Int.cast_neg, Int.cast_mul]
    exact ⟨(a i : S) * (b j : S) * x ^ (i + j).val, by linear_combination (a i : S) * (b j : S) * hpow⟩

/-- The negacyclic product is the product modulo x^256 + 1 (R142). -/
theorem dvd_mul_sub_of_negacyclic {a b : Coeffs} {pa pb pc : S} (ha : pa = valueAt x a) (hb : pb = valueAt x b)
    (hc : pc = valueAt x (negacyclic a b)) : y + 1 ∣ pa * pb - pc := by
  rw [ha, hb, hc, valueAt_negacyclic, valueAt, valueAt, Finset.sum_mul_sum]
  simp only [← Finset.sum_sub_distrib]
  exact Finset.dvd_sum fun i _ => Finset.dvd_sum fun j _ => dvd_term_mul_term_sub x hy a b i j

end

end

/-- The polynomial over the integers mod Q of a register that holds integers of the residues of `c` (R1, R140). -/
theorem sum_C_mul_X_pow_eq_valueAt {v : Poly} {c : Coeffs} (h : ∀ k : Fin 256, v[k].toInt ≡ c k [ZMOD 8380417]) :
    ∑ k : Fin 256, Polynomial.C ((v[k].toInt : Int) : ZMod 8380417) * Polynomial.X ^ k.val =
      valueAt Polynomial.X c := by
  have hcast : ∀ k : Fin 256, ((v[k].toInt : Int) : ZMod 8380417) = (c k : ZMod 8380417) := fun k =>
    (ZMod.intCast_eq_intCast_iff _ _ 8380417).mpr (h k)
  simp only [valueAt, hcast, Polynomial.C_eq_intCast]

end Sys2Proof.Machine
end

section
/-! The statements of 43_ring.md, settled. -/

namespace Sys2Proof.Machine

open Sys2Proof.Reference

/-- Settles O37: PADD's word, and the register it writes. -/
theorem paddRule : Obligations.PaddRule := fun s d a b =>
  ⟨encode_padd d a b ▸ decode_encode rfl, exec_padd_writesReduced s d a b⟩

/-- Settles O38: PMUL's word, and the register it writes, the loops of R142 being the model's sum. -/
theorem pmulRule : Obligations.PmulRule := by
  refine fun s d a b => ⟨encode_pmul d a b ▸ decode_encode rfl, ?_⟩
  rw [pmulLoop_eq_negacyclic]
  exact exec_pmul_writesReduced s d a b

/-- Settles O39: PRED's word, and the register it writes. -/
theorem predRule : Obligations.PredRule := fun s d a =>
  ⟨encode_pred d a ▸ decode_encode rfl, exec_pred_writesReduced s d a⟩

/-- Settles O40: P2R's word and effect, with one destination and with two. -/
theorem p2rRule : Obligations.P2rRule := by
  refine fun s d e a => ⟨fun hde => ?_, fun hde => ?_⟩
  · subst hde
    exact ⟨encode_p2r d d a ▸ decode_encode_p2r_same d a, exec_p2r_same s d a⟩
  · obtain ⟨t, ht, hd, he, hframe⟩ := exec_p2r_writes s a hde
    have hwf : (Instr.p2r d e a).WellFormed := decide_eq_true hde
    refine ⟨encode_p2r d e a ▸ decode_encode hwf, t, ht, fun k => ?_, hframe⟩
    rw [hd, he, polyOf_getElem, polyOf_getElem]
    exact splitWords_spec s.polys[a][k]

/-- Settles O41: what each ring command writes depends on its sources alone. -/
theorem aliasingIsHarmless : Obligations.AliasingIsHarmless := by
  intro s d e d' e' a b hde hde'
  obtain ⟨t1, ht1, h1⟩ := exec_padd_writesReduced s d a b
  obtain ⟨u1, hu1, h1'⟩ := exec_padd_writesReduced s d' a b
  obtain ⟨t2, ht2, h2⟩ := exec_pmul_writesReduced s d a b
  obtain ⟨u2, hu2, h2'⟩ := exec_pmul_writesReduced s d' a b
  obtain ⟨t3, ht3, h3⟩ := exec_pred_writesReduced s d a
  obtain ⟨u3, hu3, h3'⟩ := exec_pred_writesReduced s d' a
  obtain ⟨t4, ht4, hhigh, hlow, -⟩ := exec_p2r_writes s a hde
  obtain ⟨u4, hu4, hhigh', hlow', -⟩ := exec_p2r_writes s a hde'
  refine ⟨t1, u1, t2, u2, t3, u3, t4, u4, ⟨ht1, hu1, h1.poly_eq h1' fun _ => rfl⟩,
    ⟨ht2, hu2, h2.poly_eq h2' fun _ => rfl⟩, ⟨ht3, hu3, h3.poly_eq h3' fun _ => rfl⟩,
    ⟨ht4, hu4, hhigh.trans hhigh'.symm, hlow.trans hlow'.symm⟩, fun hab => ?_⟩
  simp only [exec_padd, exec_pmul, hab, and_self]

/-- Settles O42: sums and negacyclic products commute, and depend on residues only. -/
theorem ringCommandsCommute : Obligations.RingCommandsCommute := by
  intro s s' d a b
  refine ⟨?_, ?_, fun ha hb => ?_⟩
  · simp only [exec_padd, add_comm]
  · simp only [exec_pmul, negacyclic_comm (coeffsOf s.polys[a])]
  · obtain ⟨t, ht, h⟩ := exec_padd_writesReduced s d a b
    obtain ⟨t', ht', h'⟩ := exec_padd_writesReduced s' d a b
    obtain ⟨u, hu, g⟩ := exec_pmul_writesReduced s d a b
    obtain ⟨u', hu', g'⟩ := exec_pmul_writesReduced s' d a b
    exact ⟨t, t', u, u', ht, ht', h.poly_eq h' fun k => Int.ModEq.add (ha k) (hb k), hu, hu',
      g.poly_eq g' (negacyclic_modEq ha hb)⟩

/-- Settles O43: the products with the monomials 1 and X. -/
theorem pmulByOneAndByX : Obligations.PmulByOneAndByX := by
  intro s d a b
  obtain ⟨t, ht, hk, -⟩ := exec_pmul_writesReduced s d a b
  refine ⟨fun hone => ⟨t, ht, fun k => ?_⟩, fun hX => ⟨t, ht, ?_, fun k hne => ?_⟩⟩
  · rw [hk, negacyclic_monomial (b := coeffsOf s.polys[b]) _ hone, sub_zero, if_pos le_rfl, coeffsOf_apply]
  · rw [hk, negacyclic_monomial (b := coeffsOf s.polys[b]) _ hX, if_neg (by decide)]
    rfl
  · have hle : k - 1 ≤ k := (Fin.sub_one_lt_iff.mpr (Fin.pos_iff_ne_zero.mpr hne)).le
    rw [hk, negacyclic_monomial (b := coeffsOf s.polys[b]) _ hX, if_pos hle, coeffsOf_apply]

/-- Settles O44: the negacyclic product at X, over the integers mod Q. -/
theorem pmulIsQuotientRingProduct : Obligations.PmulIsQuotientRingProduct := by
  intro s d a b
  obtain ⟨t, ht, hk, hcanonical, -⟩ := exec_pmul_writesReduced s d a b
  have hresidue : ∀ k : Fin 256,
      t.polys[d][k].toInt ≡ negacyclic (coeffsOf s.polys[a]) (coeffsOf s.polys[b]) k [ZMOD 8380417] :=
    fun k => hk k ▸ Int.mod_modEq _ _
  refine ⟨t, ht, hcanonical, fun pa pb pc hpa hpb hpc => ?_⟩
  rw [sum_C_mul_X_pow_eq_valueAt (c := coeffsOf s.polys[a]) fun _ => Int.ModEq.refl _] at hpa
  rw [sum_C_mul_X_pow_eq_valueAt (c := coeffsOf s.polys[b]) fun _ => Int.ModEq.refl _] at hpb
  rw [sum_C_mul_X_pow_eq_valueAt hresidue] at hpc
  generalize hy : (Polynomial.X : Polynomial (ZMod 8380417)) ^ 256 = y
  exact dvd_mul_sub_of_negacyclic Polynomial.X hy hpa hpb hpc

end Sys2Proof.Machine
end

section
/-! SUPPORT. The error of a pending word (R160 to R166): the words that the decoder rejects, the code that an accepted
command ends with, and what the core's turn makes of them. The statements of 60_exceptions.md are assembled from these. -/

namespace Sys2Proof.Machine

open Sys2Proof.Reference

/-! ### ILLEGAL: the words that the decoder rejects -/

theorem opcode_mem_assigned (i : Instr) :
    i.opcode ∈ ([0x01, 0x02, 0x03, 0x04, 0x05, 0x10, 0x11, 0x12, 0x13] : List (BitVec 8)) := by
  cases i <;> simp [Instr.opcode]

theorem opcode_of_decode {w : Word} {i : Instr} (h : decode w = .instr i) : w.extractLsb' 0 8 = i.opcode := by
  obtain ⟨-, -, hop, -⟩ := decode_eq_instr_iff_standsIn.mp h
  exact hop

/-- An accepted word has none of R161's three causes. -/
theorem not_illegalWord_of_decode {w : Word} {i : Instr} (h : decode w = .instr i) : ¬ illegalWord w := by
  obtain ⟨hwf, hrsv, -, hargs⟩ := decode_eq_instr_iff_standsIn.mp h
  rw [illegalWord, opcode_of_decode h]
  rintro (hreserved | hunassigned | ⟨hp2r, hde⟩)
  · exact hreserved hrsv
  · exact hunassigned (opcode_mem_assigned i)
  · cases i with
    | p2r d e a =>
      obtain ⟨rfl, -, rfl⟩ := hargs
      exact of_decide_eq_true hwf (congrArg BitVec.toFin hde)
    | _ => simp [Instr.opcode] at hp2r

/-- A rejected word has one of R161's three causes. -/
theorem illegalWord_of_decode {w : Word} {r : DecodeReject} (h : decode w = .reject r) : illegalWord w := by
  by_cases hrsv : rsvField w ≠ 0
  · exact .inl hrsv
  by_cases hop : opField w ∉ ([0x01, 0x02, 0x03, 0x04, 0x05, 0x10, 0x11, 0x12, 0x13] : List (BitVec 8))
  · exact .inr (.inl hop)
  by_cases hp2r : opField w = 0x13 ∧ dField w = eField w
  · exact .inr (.inr ⟨hp2r.1, BitVec.toFin_inj.mp hp2r.2⟩)
  -- an assigned opcode is rejected in no other way
  rw [decode, if_neg hrsv] at h
  simp only [List.mem_cons, List.not_mem_nil, or_false, Decidable.not_not] at hop
  rcases hop with hop | hop | hop | hop | hop | hop | hop | hop | hop <;> simp_all [decodeOp]

theorem exists_decode_eq_reject_iff {w : Word} : (∃ r, decode w = .reject r) ↔ illegalWord w := by
  refine ⟨fun ⟨_, h⟩ => illegalWord_of_decode h, fun hw => ?_⟩
  cases h : decode w with
  | instr i => exact absurd hw (not_illegalWord_of_decode h)
  | reject r => exact ⟨r, rfl⟩

theorem errorOf_of_illegalWord {w : Word} (h : illegalWord w) (phase : Phase) (n : Nat) :
    errorOf w phase n = .illegal := by
  rcases h with h | h | h <;> simp only [errorOf, if_pos h, ite_self]

/-! ### The code of an accepted command -/

/-- The code that a well-formed command ends with in a phase, with argument `n` (R162 to R164). -/
def resultCode (i : Instr) (phase : Phase) (n : Nat) : ErrCode :=
  match i with
  | .sinit => if n ≠ 128 ∧ n ≠ 256 then .config else .ok
  | .absorb => if phase ≠ .absorbing then .protocol else if n > 1024 then .range else .ok
  | .final => if phase ≠ .absorbing then .protocol else .ok
  | .squeeze =>
    if phase ≠ .finalized ∧ phase ≠ .squeezing then .protocol else if n > 1024 then .range else .ok
  | _ => .ok

/-- Past the decoder's checks, R166's order on the word is the command's own. -/
theorem errorOf_of_decode {w : Word} {i : Instr} (h : decode w = .instr i) (phase : Phase) (n : Nat) :
    errorOf w phase n = resultCode i phase n := by
  have hlegal := not_illegalWord_of_decode h
  rw [illegalWord, opcode_of_decode h, not_or, not_or] at hlegal
  obtain ⟨hrsv, hassigned, hp2r⟩ := hlegal
  simp only [errorOf, opcode_of_decode h, if_neg hrsv, if_neg hassigned, if_neg hp2r]
  cases i <;> simp [Instr.opcode, resultCode]

/-- Every well-formed command completes, with its code (R40, R160). -/
theorem exec_completes {i : Instr} (hwf : i.WellFormed) (s : State) :
    ∃ t, exec i s = .next t ∧ t.busy = false ∧ t.err = resultCode i s.phase s.argument := by
  cases i with
  | permute => exact ⟨_, exec_permute s, rfl, rfl⟩
  | sinit =>
    by_cases hbad : s.argument ≠ 128 ∧ s.argument ≠ 256
    · exact ⟨_, exec_sinit_config s (variantRate_of_not_variant hbad.1 hbad.2), rfl, (if_pos hbad).symm⟩
    · have hv : s.argument = 128 ∨ s.argument = 256 := or_iff_not_and_not.mpr hbad
      exact ⟨_, exec_sinit_ok s (variantRate_of_variant hv), rfl, (if_neg hbad).symm⟩
  | absorb =>
    by_cases hp : s.phase = .absorbing
    · by_cases hn : s.argument > 1024
      · exact ⟨_, exec_absorb_range s hp hn, rfl, by simp [resultCode, hp, hn]⟩
      · exact ⟨_, exec_absorb_ok s hp (Nat.not_lt.mp hn), rfl, by simp [resultCode, hp, hn]⟩
    · exact ⟨_, exec_absorb_protocol s hp, rfl, (if_pos hp).symm⟩
  | final =>
    by_cases hp : s.phase = .absorbing
    · exact ⟨_, exec_final_ok s hp, rfl, by simp [resultCode, hp]⟩
    · exact ⟨_, exec_final_protocol s hp, rfl, (if_pos hp).symm⟩
  | squeeze =>
    by_cases hbad : s.phase ≠ .finalized ∧ s.phase ≠ .squeezing
    · exact ⟨_, exec_squeeze_protocol s hbad.1 hbad.2, rfl, (if_pos hbad).symm⟩
    · have hp : s.phase = .finalized ∨ s.phase = .squeezing := or_iff_not_and_not.mpr hbad
      by_cases hn : s.argument > 1024
      · exact ⟨_, exec_squeeze_range s hp hn, rfl, ((if_neg hbad).trans (if_pos hn)).symm⟩
      · exact ⟨_, exec_squeeze_ok s hp (Nat.not_lt.mp hn), rfl, ((if_neg hbad).trans (if_neg hn)).symm⟩
  | padd d a b => exact ⟨_, exec_padd s d a b, rfl, rfl⟩
  | pmul d a b => exact ⟨_, exec_pmul s d a b, rfl, rfl⟩
  | pred d a => exact ⟨_, exec_pred s d a, rfl, rfl⟩
  | p2r d e a => exact ⟨_, exec_p2r s d e a (of_decide_eq_true hwf), rfl, rfl⟩

/-- A command that ends with an error does nothing else (R165). -/
theorem exec_eq_complete_of_err_ne_ok {i : Instr} {s t : State} (h : exec i s = .next t) (herr : t.err ≠ .ok) :
    t = s.complete t.err := by
  obtain ⟨_, _, e⟩ | ⟨_, e⟩ | ⟨_, _, _, e⟩ | ⟨_, _, _, e⟩ | ⟨_, _, e⟩ | ⟨_, _, _, e⟩ | ⟨_, _, e, _⟩ := exec_cases s i
  all_goals cases h.symm.trans e
  case inl => rfl
  all_goals exact absurd rfl herr

/-! ### The core's turn -/

section
variable {s : State} (hb : s.busy = true) (hr : s.resetPin = false)
include hb hr

theorem coreStep_of_illegalWord (h : illegalWord s.pendCmd) : coreStep s = .next (s.complete .illegal) := by
  obtain ⟨_, hd⟩ := exists_decode_eq_reject_iff.mpr h
  rw [coreStep_busy s hb hr]
  obtain ⟨_, _, e⟩ | ⟨_, hd', _⟩ := execPending_cases s
  · exact e
  · cases hd.symm.trans hd'

theorem coreStep_completes : ∃ t, coreStep s = .next t ∧ t.busy = false ∧
    t.err = errorOf s.pendCmd s.phase s.pendArg.toNat := by
  cases hd : decode s.pendCmd with
  | reject r =>
    have hw := illegalWord_of_decode hd
    exact ⟨_, coreStep_of_illegalWord hb hr hw, rfl, (errorOf_of_illegalWord hw _ _).symm⟩
  | instr i =>
    obtain ⟨hwf, -⟩ := decode_eq_instr_iff_standsIn.mp hd
    obtain ⟨t, ht, hbusy, herr⟩ := exec_completes hwf s
    exact ⟨t, (coreStep_of_decode hb hr hd).trans ht, hbusy, herr.trans (errorOf_of_decode hd _ _).symm⟩

theorem coreStep_eq_complete_of_err_ne_ok {t : State} (h : coreStep s = .next t) (herr : t.err ≠ .ok) :
    t = s.complete t.err := by
  rw [coreStep_busy s hb hr] at h
  obtain ⟨_, _, e⟩ | ⟨_, _, e⟩ := execPending_cases s
  · cases h.symm.trans e
    rfl
  · exact exec_eq_complete_of_err_ne_ok (e ▸ h) herr

end

end Sys2Proof.Machine
end

section
/-! The statements of 60_exceptions.md, settled. -/

namespace Sys2Proof.Machine

/-- Settles O46: the core's turn completes a rejected word with ILLEGAL and a command with its own code. -/
theorem errorPriority : Obligations.ErrorPriority := by
  rintro s (ha | ⟨rest, ha⟩) hb hr
  · rw [step_nil s ha]
    exact coreStep_completes hb hr
  · rw [step_core ha]
    exact coreStep_completes (s := { s with agenda := rest }) hb hr

/-- Settles O5: the decoder rejects exactly the words of R161. -/
theorem illegalWordSetsErrOnly : Obligations.IllegalWordSetsErrOnly := fun s hb hr hw =>
  ⟨fun ha => (step_nil s ha).trans (coreStep_of_illegalWord hb hr hw),
    fun rest ha => (step_core ha).trans (coreStep_of_illegalWord (s := { s with agenda := rest }) hb hr hw)⟩

/-- Settles O47: whatever the pending word, the turn that raises an error does nothing else. -/
theorem errorsChangeErrAndBusyOnly : Obligations.ErrorsChangeErrAndBusyOnly := fun s _ hb hr ht herr =>
  ⟨fun ha => coreStep_eq_complete_of_err_ne_ok hb hr ((step_nil s ha).symm.trans ht) herr,
    fun rest ha => coreStep_eq_complete_of_err_ne_ok (s := { s with agenda := rest }) hb hr
      ((step_core ha).symm.trans ht) herr⟩

end Sys2Proof.Machine
end

section
/-! SUPPORT. What a held reset keeps: from an edge that asserts the reset input until its release every register keeps the
value of R37 (R180, R181). -/

namespace Sys2Proof.Machine

/-- The reset input is asserted, and all but the agenda, the last answer of a read and the draw counter is what a reset at
some draw leaves (R37, R180). -/
def State.HeldInReset (s : State) : Prop :=
  ∃ n es v d, s = { State.resetAt n with resetPin := true, agenda := es, readData := v, draws := d }

theorem assertReset_heldInReset (s : State) : s.assertReset.HeldInReset :=
  ⟨s.draws, s.agenda, s.readData, s.draws + 1, rfl⟩

theorem State.HeldInReset.resetPin {s : State} (hs : s.HeldInReset) : s.resetPin = true := by
  obtain ⟨n, es, v, d, rfl⟩ := hs
  rfl

theorem State.HeldInReset.busy {s : State} (hs : s.HeldInReset) : s.busy = false := by
  obtain ⟨n, es, v, d, rfl⟩ := hs
  rfl

theorem State.HeldInReset.withAgenda {s : State} (hs : s.HeldInReset) (es : List Event) :
    State.HeldInReset { s with agenda := es } := by
  obtain ⟨n, _, v, d, rfl⟩ := hs
  exact ⟨n, es, v, d, rfl⟩

theorem State.HeldInReset.withAnswer {s : State} (hs : s.HeldInReset) (v : Word) (d : Nat) :
    State.HeldInReset { s with readData := v, draws := d } := by
  obtain ⟨n, es, _, _, rfl⟩ := hs
  exact ⟨n, es, v, d, rfl⟩

/-- Under reset a read changes its answer and the draw counter, and a write nothing (R180). -/
theorem hostStep_heldInReset {a : Access} {s t : State} (h : hostStep a s = .next t) (hs : s.HeldInReset) :
    t.HeldInReset := by
  obtain ⟨d, v, rfl⟩ | ⟨hb, _⟩ | ⟨_, hr, _⟩ | rfl := hostStep_cases h
  · exact hs.withAnswer v d
  · simp [hs.busy] at hb
  · simp [hs.resetPin] at hr
  · exact hs

/-- No event but its release ends a held reset: not an access, not the core's turn, not another edge (R180). -/
theorem runEvent_heldInReset {e : Event} {s t : State} (h : runEvent e s = .next t) (hne : e ≠ .releaseReset)
    (hs : s.HeldInReset) : t.HeldInReset := by
  cases e with
  | host a => exact hostStep_heldInReset h hs
  | core =>
    cases (coreStep_idle s (.inr hs.resetPin)).symm.trans h
    exact hs
  | assertReset =>
    cases h
    exact assertReset_heldInReset s
  | releaseReset => exact absurd rfl hne

/-- Events under reset, one after another: they leave reset held, and the events after them. -/
theorem run_heldInReset (es rest : List Event) (k : Nat) (s : State) (hes : ∀ e ∈ es, e.Ok ∧ e ≠ .releaseReset)
    (ha : s.agenda = es ++ rest) (hs : s.HeldInReset) :
    ∃ v, runSteps (es.length + k) s = runSteps k v ∧ v.HeldInReset ∧ v.agenda = rest := by
  induction es generalizing s with
  | nil => exact ⟨s, by simp, hs, ha⟩
  | cons e es ih =>
    obtain ⟨hok, hne⟩ := hes e (by simp)
    obtain ⟨t, hstep, hagenda⟩ := step_event ha hok
    have ht : t.HeldInReset := runEvent_heldInReset ((step_cons s _ _ ha).symm.trans hstep) hne (hs.withAgenda _)
    obtain ⟨v, hrun, hv⟩ := ih t (fun e' hmem => hes e' (by simp [hmem])) hagenda ht
    refine ⟨v, ?_, hv⟩
    rw [List.length_cons, Nat.add_right_comm, runSteps_succ _ hstep, hrun]

/-- The release of reset leaves R37's values (R181). -/
theorem releaseReset_values {s : State} (hs : s.HeldInReset) :
    s.releaseReset.busy = false ∧ s.releaseReset.ovr = false ∧ (∀ i : Fin 25, s.releaseReset.lanes[i] = 0) ∧
    s.releaseReset.rate = 0 ∧ s.releaseReset.cursor = 0 ∧ s.releaseReset.phase = .idle ∧
    s.releaseReset.err = .ok ∧ s.releaseReset.arg = 0 := by
  obtain ⟨n, es, v, d, rfl⟩ := hs
  obtain ⟨hlanes, -⟩ := resetAt_values (n := n) (pin := false) (es := es) (v := v) rfl
  exact ⟨rfl, rfl, hlanes, rfl, rfl, rfl, rfl, rfl⟩

end Sys2Proof.Machine
end

section
/-! The statements of 70_reset_and_hazards.md, settled. -/

namespace Sys2Proof.Machine

/-- Settles O52: the edge brings about a held reset, `run_heldInReset` keeps it, and its release leaves R37's values. -/
theorem resetAbandonsCommand : Obligations.ResetAbandonsCommand := by
  intro s es hes ha
  have hedge : step s = .next (State.assertReset { s with agenda := es ++ [.releaseReset] }) := step_cons s _ _ ha
  obtain ⟨v, hrun, hv, hva⟩ := run_heldInReset es [.releaseReset] 1 _ hes rfl
    (assertReset_heldInReset { s with agenda := es ++ [.releaseReset] })
  have hrelease : step v = .next (State.releaseReset { v with agenda := [] }) := step_cons v _ _ hva
  exact ⟨_, (runSteps_succ _ hedge).trans (hrun.trans (runSteps_one hrelease)), rfl, rfl,
    releaseReset_values (hv.withAgenda [])⟩

end Sys2Proof.Machine
end
